-- ==== Sys2Proof/Word.lean ====
section
/-! DEFINITION. The Word (00_scope R10) and the register number (30_encoding R61, R82). -/

namespace Sys2Proof

/-- The "16-bit unsigned integer; the fundamental storage and register unit" (00_scope R10). Its addition is `BitVec`'s,
modulo 65536. -/
abbrev Word := BitVec 16

/-- A register number, 0 to 7: the 3-bit value of a register field (30_encoding R61, R82). -/
abbrev RegNum := BitVec 3

end Sys2Proof
end

