-- ==== Sys2Proof/Config.lean ====
section
/-! DEFINITION. The fixed parameters of the hardware (00_scope R6) and the names of its errors (60_exceptions R200). -/

namespace Sys2Proof

/-- MEM_WORDS: the number of words of memory (00_scope R6, 10_state R31). -/
abbrev memWords : Nat := 32768

/-- WORD_SIZE: bytes of address per word, and the advance of the pc (00_scope R6). -/
abbrev wordSize : Word := 2#16

/-- PORT_ADDR: the data address of the two console ports (00_scope R6, 20_memory R46). -/
abbrev portAddr : Word := 0#16

/-- INQ_CAP: the capacity of the input queue (00_scope R6, 10_state R32). -/
abbrev inqCap : Nat := 10

/-- What a memory word the canonical list does not name reads as. DESIGN CHOICE (log entry 2): as a way of writing a
memory down it fixes nothing; as the contents of memory in `State.reset` it is the instance `mem_init = 0` of the open
parameter of 92_eei_decisions D8. -/
abbrev unlistedWord : Word := 0#16

/-- The five error kinds by name, without numbers (60_exceptions R200, D12). -/
inductive ErrorKind where
  | unalignedAccess
  | malformedInstruction
  | immediateOutOfRange
  | inputQueueFull
  | unimplementedFeature
  deriving DecidableEq, Repr

/-- "fatal to the core" of the table of 60_exceptions R200; `ImmediateOutOfRange` never occurs in a step. -/
def ErrorKind.fatal : ErrorKind → Bool
  | .unalignedAccess => true
  | .malformedInstruction => true
  | .immediateOutOfRange => false
  | .inputQueueFull => false
  | .unimplementedFeature => false

/-- `raise K(info)` of 00_scope R11 for the two kinds that memory accesses and decoding raise. Whoever raised it says what
becomes of it: a fault of the core in a step, a failed command in `disassembleAt`. -/
inductive Raised where
  | unalignedAccess (addr : Word)
  | malformedInstruction (bits : Word)
  deriving DecidableEq, Repr

/-- The kind of a raised error. -/
def Raised.kind : Raised → ErrorKind
  | .unalignedAccess _ => .unalignedAccess
  | .malformedInstruction _ => .malformedInstruction

/-- The encoder's one error (30_encoding R81, 60_exceptions R203), with the rejected immediate. -/
inductive EncodeError where
  | immediateOutOfRange (i : Int)
  deriving DecidableEq, Repr

/-- A non-fatal diagnostic (60_exceptions R207, R208): a message to the host that changes nothing. -/
inductive Diagnostic where
  /-- An executed `jalr` with the halt bit clear: the pc and the word (R142, R200). -/
  | unimplementedFeature (pc bits : Word)
  /-- The decoder's, for a word of opcode `0b111` whose immediate is not zero (R106, R208). -/
  | jalrNonZeroImmediate (bits : Word)
  deriving DecidableEq, Repr

end Sys2Proof
end

