-- ==== Sys2Proof/Syntax.lean ====
section
/-! DEFINITION. The instructions: one constructor per row of opcode_table.json (30_encoding R67, R71). -/

namespace Sys2Proof

/-- A decoded instruction with the operands the decoder delivers (41_decoder R101): register numbers `a`, `b`, `c`; `simm`,
the sign-extended 7-bit immediate as a Word; `imm`, the unsigned 10-bit immediate of `lui` as a Word. `jalr` and `hlt` are
the two rows into which 30_encoding R71 splits the one variant `Jalr` (log entry 4). -/
inductive Instr where
  | add  (a b c : RegNum)
  | addi (a b : RegNum) (simm : Word)
  | nand (a b c : RegNum)
  | lui  (a : RegNum) (imm : Word)
  | lw   (a b : RegNum) (simm : Word)
  | sw   (a b : RegNum) (simm : Word)
  | beq  (a b : RegNum) (simm : Word)
  | jalr (a b : RegNum) (simm : Word)
  | hlt  (a b : RegNum) (simm : Word)
  deriving DecidableEq, Repr

end Sys2Proof
end

