-- ==== Sys2Proof/WellFormed.lean ====
section
/-! DEFINITION. Which instructions a word can decode to: the ranges of the operands (41_decoder R101, 30_encoding R71). -/

namespace Sys2Proof

/-- `simm` is "one of `0x0000` to `0x003F` or `0xFFC0` to `0xFFFF`" (41_decoder R101). -/
abbrev SimmInRange (simm : Word) : Prop := simm.toNat ≤ 0x003F ∨ 0xFFC0 ≤ simm.toNat

/-- `imm` of `lui` is 0 to 1023 (30_encoding R66). -/
abbrev ImmInRange (imm : Word) : Prop := imm.toNat ≤ 1023

/-- The halt bit of a `jalr` immediate is its bit 0 (30_encoding R68). -/
abbrev HaltBitSet (simm : Word) : Prop := simm.getLsbD 0 = true

/-- The operands are ones an encoding can hold: the test. -/
def Instr.wellFormed : Instr → Bool
  | .add _ _ _ => true
  | .addi _ _ simm => decide (SimmInRange simm)
  | .nand _ _ _ => true
  | .lui _ imm => decide (ImmInRange imm)
  | .lw _ _ simm => decide (SimmInRange simm)
  | .sw _ _ simm => decide (SimmInRange simm)
  | .beq _ _ simm => decide (SimmInRange simm)
  | .jalr _ _ simm => decide (SimmInRange simm ∧ ¬ HaltBitSet simm)
  | .hlt _ _ simm => decide (SimmInRange simm ∧ HaltBitSet simm)

/-- The operands are ones an encoding can hold. -/
abbrev Instr.WellFormed (i : Instr) : Prop := i.wellFormed = true

end Sys2Proof
end

