-- ==== Sys2Proof/Decode.lean ====
section
/-! DEFINITION. The bit-field codec (40_bitfield_codec), the decoder (41_decoder) and the encoder (30_encoding, section 7). -/

namespace Sys2Proof

/-! ### Bit-field codec -/

/-- "returns the `width`-bit unsigned field of `word` beginning at bit `startBit`" (40_bitfield_codec R90). The domain
`startBit + width ≤ 16` is a precondition (R91, D20). -/
def extractField (word : Word) (startBit width : Nat) (_ : startBit + width ≤ 16 := by decide) : Word :=
  (word >>> startBit) &&& BitVec.ofNat 16 (2 ^ width - 1)

/-- "treats bit `signBitIndex` of `value` as the sign bit and extends it through all higher bits" (40_bitfield_codec R92);
the domain is `signBitIndex` 0 to 15 (R93). Bits above the sign bit are overwritten (D21). -/
def signExtend (value : Word) (s : Nat) (_ : s ≤ 15 := by decide) : Word :=
  let low := value &&& BitVec.ofNat 16 (2 ^ (s + 1) - 1)
  if value.getLsbD s then low ||| (0xFFFF#16 <<< (s + 1)) else low

/-- `extractField` as the shift circuit of 40_bitfield_codec R94 computes it. -/
def shiftExtractField (word : Word) (startBit width : Nat) : Word :=
  (word <<< (16 - startBit - width)) >>> (16 - width)

/-- `signExtend` as the shift circuit of 40_bitfield_codec R94 computes it. -/
def shiftSignExtend (value : Word) (s : Nat) : Word :=
  (value <<< (15 - s)).sshiftRight (15 - s)

/-- "`signed(v) = v` when `v < 32768`, else `v - 65536`" (00_scope R10). -/
def signed (v : Word) : Int :=
  if v.toNat < 32768 then v.toNat else v.toNat - 65536

/-! ### Decoder -/

/-- The spec's decoded instruction: "a decoded, tagged value" of eight variants (41_decoder R101). -/
inductive Variant where
  | add  (a b c : RegNum)
  | nand (a b c : RegNum)
  | lui  (a : RegNum) (imm : Word)
  | addi (a b : RegNum) (simm : Word)
  | sw   (a b : RegNum) (simm : Word)
  | lw   (a b : RegNum) (simm : Word)
  | beq  (a b : RegNum) (simm : Word)
  | jalr (a b : RegNum) (simm : Word)
  deriving DecidableEq, Repr

/-- The opcode, bits 15 to 13 (30_encoding R61, 41_decoder R100). -/
def opcodeField (bits : Word) : Word := extractField bits 13 3

/-- regA, bits 12 to 10 (30_encoding R61, 41_decoder R100). -/
def regAField (bits : Word) : RegNum := (extractField bits 10 3).setWidth 3

/-- regB, bits 9 to 7 (30_encoding R61, 41_decoder R100). -/
def regBField (bits : Word) : RegNum := (extractField bits 7 3).setWidth 3

/-- regC, bits 2 to 0 (30_encoding R61, 41_decoder R100). -/
def regCField (bits : Word) : RegNum := (extractField bits 0 3).setWidth 3

/-- The field of format RRR that must be zero, bits 6 to 3 (30_encoding R61, 41_decoder R100). -/
def zeroField (bits : Word) : Word := extractField bits 3 4

/-- imm7, bits 6 to 0, not yet extended (30_encoding R61, 41_decoder R100). -/
def imm7Field (bits : Word) : Word := extractField bits 0 7

/-- imm10, bits 9 to 0 (30_encoding R61, R66, 41_decoder R100). -/
def imm10Field (bits : Word) : Word := extractField bits 0 10

/-- `simm`: imm7 sign-extended from bit 6 (30_encoding R65, 41_decoder R104). -/
def simmField (bits : Word) : Word := signExtend (imm7Field bits) 6

/-- The whole decoder in the order of 41_decoder R115: the opcode `0b011`; then the register-register form, whose test is
`(opcode & 0b101) = 0` (R103) and which fails by name when bits 6 to 3 are not zero (R113); then the register-immediate
form, with `beq` as "any remaining opcode". -/
def decodeVariant (bits : Word) : Except Raised Variant :=
  let opcode := opcodeField bits
  let a := regAField bits
  let b := regBField bits
  if opcode = 0b011#16 then .ok (.lui a (imm10Field bits))
  else if opcode &&& 0b101#16 = 0#16 then
    if zeroField bits ≠ 0#16 then .error (.malformedInstruction bits)
    else if opcode.getLsbD 1 then .ok (.nand a b (regCField bits)) else .ok (.add a b (regCField bits))
  else
    let simm := simmField bits
    if opcode = 0b111#16 then .ok (.jalr a b simm)
    else if opcode = 0b001#16 then .ok (.addi a b simm)
    else if opcode = 0b101#16 then .ok (.sw a b simm)
    else if opcode = 0b100#16 then .ok (.lw a b simm)
    else .ok (.beq a b simm)

/-- The diagnostics the decoder emits: `JalrNonZeroImmediate` for a word of opcode `0b111` with `bits[6:0] != 0`
(41_decoder R106, R115; 60_exceptions R208). -/
def decodeDiagnostics (bits : Word) : List Diagnostic :=
  if opcodeField bits = 0b111#16 ∧ imm7Field bits ≠ 0#16 then [.jalrNonZeroImmediate bits] else []

/-- The row of opcode_table.json a variant belongs to: `Jalr` is the row `hlt` when its halt bit is set and the row `jalr`
otherwise (30_encoding R68, R71). -/
def Instr.ofVariant : Variant → Instr
  | .add a b c => .add a b c
  | .nand a b c => .nand a b c
  | .lui a imm => .lui a imm
  | .addi a b simm => .addi a b simm
  | .sw a b simm => .sw a b simm
  | .lw a b simm => .lw a b simm
  | .beq a b simm => .beq a b simm
  | .jalr a b simm => if simm.getLsbD 0 then .hlt a b simm else .jalr a b simm

/-- The variant of an instruction: `jalr` and `hlt` both "decode to the variant `Jalr`" (30_encoding R71). -/
def Instr.variant : Instr → Variant
  | .add a b c => .add a b c
  | .addi a b simm => .addi a b simm
  | .nand a b c => .nand a b c
  | .lui a imm => .lui a imm
  | .lw a b simm => .lw a b simm
  | .sw a b simm => .sw a b simm
  | .beq a b simm => .beq a b simm
  | .jalr a b simm => .jalr a b simm
  | .hlt a b simm => .jalr a b simm

/-- The instruction in a word, or `MalformedInstruction` (41_decoder R100, R115). -/
def decode (bits : Word) : Except Raised Instr :=
  (decodeVariant bits).map Instr.ofVariant

/-- The host's view of the decoder: the instruction in the low `nbits` bits of `w`, bit 0 the least significant bit of the
one word an instruction is (30_encoding R60). -/
def decodeTableWord (nbits w : Nat) : Option Instr :=
  (decode (BitVec.ofNat 16 (w % 2 ^ nbits))).toOption

/-! ### Encoder -/

/-- Format RRR: `opcode ++ a ++ b ++ 0b0000 ++ c` (30_encoding R62, R76). -/
def encodeRRR (opcode a b c : RegNum) : Word :=
  (opcode.setWidth 16 <<< 13) ||| (a.setWidth 16 <<< 10) ||| (b.setWidth 16 <<< 7) ||| c.setWidth 16

/-- Format RRI: `opcode ++ a ++ b ++ imm7`, the low seven bits of the immediate (30_encoding R63, R77). -/
def encodeRRI (opcode a b : RegNum) (imm : Word) : Word :=
  (opcode.setWidth 16 <<< 13) ||| (a.setWidth 16 <<< 10) ||| (b.setWidth 16 <<< 7) ||| (imm &&& 0x7F#16)

/-- Format RI: `opcode ++ a ++ imm10` (30_encoding R64, R80). -/
def encodeRI (opcode a : RegNum) (imm : Word) : Word :=
  (opcode.setWidth 16 <<< 13) ||| (a.setWidth 16 <<< 10) ||| (imm &&& 0x3FF#16)

/-- Re-encoding a decoded variant with its fields (30_encoding R84 (a)). -/
def encodeVariant : Variant → Word
  | .add a b c => encodeRRR 0b000#3 a b c
  | .nand a b c => encodeRRR 0b010#3 a b c
  | .lui a imm => encodeRI 0b011#3 a imm
  | .addi a b simm => encodeRRI 0b001#3 a b simm
  | .sw a b simm => encodeRRI 0b101#3 a b simm
  | .lw a b simm => encodeRRI 0b100#3 a b simm
  | .beq a b simm => encodeRRI 0b110#3 a b simm
  | .jalr a b simm => encodeRRI 0b111#3 a b simm

/-- The one word of a well-formed instruction (30_encoding R60, R84 (a)). -/
def encode (i : Instr) : Word := encodeVariant i.variant

/-- The mask of the instruction's row (30_encoding R71). -/
def Instr.rowMask : Instr → Word
  | .add _ _ _ => 0xE078#16
  | .addi _ _ _ => 0xE000#16
  | .nand _ _ _ => 0xE078#16
  | .lui _ _ => 0xE000#16
  | .lw _ _ _ => 0xE000#16
  | .sw _ _ _ => 0xE000#16
  | .beq _ _ _ => 0xE000#16
  | .jalr _ _ _ => 0xE001#16
  | .hlt _ _ _ => 0xE001#16

/-- The match of the instruction's row (30_encoding R71). -/
def Instr.rowMatch : Instr → Word
  | .add _ _ _ => 0x0000#16
  | .addi _ _ _ => 0x2000#16
  | .nand _ _ _ => 0x4000#16
  | .lui _ _ => 0x6000#16
  | .lw _ _ _ => 0x8000#16
  | .sw _ _ _ => 0xA000#16
  | .beq _ _ _ => 0xC000#16
  | .jalr _ _ _ => 0xE000#16
  | .hlt _ _ _ => 0xE001#16

/-! The encoder's constructors, the assembler reference (30_encoding R75): register numbers, immediates as signed integers. -/

/-- `add(a,b,c)` (30_encoding R76). -/
def asmAdd (a b c : RegNum) : Word := encodeRRR 0b000#3 a b c

/-- `nand(a,b,c)` (30_encoding R76). -/
def asmNand (a b c : RegNum) : Word := encodeRRR 0b010#3 a b c

/-- The range check and the word of the four constructors with a signed 7-bit immediate: "immediates must fit signed 7-bit
range [-64,63]" (30_encoding R77). -/
def asmSigned7 (opcode a b : RegNum) (i : Int) : Except EncodeError Word :=
  if -64 ≤ i ∧ i ≤ 63 then .ok (encodeRRI opcode a b (BitVec.ofInt 16 i)) else .error (.immediateOutOfRange i)

/-- `addi(a,b,i)` (30_encoding R77). -/
def asmAddi (a b : RegNum) (i : Int) : Except EncodeError Word := asmSigned7 0b001#3 a b i

/-- `lw(a,b,i)` (30_encoding R77). -/
def asmLw (a b : RegNum) (i : Int) : Except EncodeError Word := asmSigned7 0b100#3 a b i

/-- `sw(a,b,i)` (30_encoding R77). -/
def asmSw (a b : RegNum) (i : Int) : Except EncodeError Word := asmSigned7 0b101#3 a b i

/-- `beq(a,b,i)` (30_encoding R77). -/
def asmBeq (a b : RegNum) (i : Int) : Except EncodeError Word := asmSigned7 0b110#3 a b i

/-- `jalr(a,b)`, which takes no immediate (30_encoding R78). -/
def asmJalr (a b : RegNum) : Word := encodeRRI 0b111#3 a b 0#16

/-- `hlt()`, "sugar for `jalr(0,0)` with the halt bit forced on" (30_encoding R73, R79). -/
def asmHlt : Word := asmJalr 0#3 0#3 ||| 1#16

/-- `lui(a,i)` (30_encoding R80); the range check is decision D17. -/
def asmLui (a : RegNum) (i : Int) : Except EncodeError Word :=
  if 0 ≤ i ∧ i ≤ 1023 then .ok (encodeRI 0b011#3 a (BitVec.ofInt 16 i)) else .error (.immediateOutOfRange i)

end Sys2Proof
end

