-- ==== Sys2Proof/Machine/State.lean ====
section
/-! DEFINITION. The state of the machine, its reset value, and the reasons a step can stop (10_state, 60_exceptions R205). -/

namespace Sys2Proof.Machine

/-- The seven general registers that have storage; `x[0]` is hard-wired and has none (10_state R20, R21). -/
structure RegFile where
  x1 : Word
  x2 : Word
  x3 : Word
  x4 : Word
  x5 : Word
  x6 : Word
  x7 : Word
  deriving DecidableEq, Repr

/-- The 32768 words of memory (10_state R31, 20_memory R40) as pairs of a word index and a Word, in the one canonical form
that `Memory.wf` names. Words, not bytes: "A model therefore keeps memory as 32768 Words and has no bytes at all"
(20_memory R50; log entry 1). -/
abbrev Memory := List (Nat × Word)

/-- The canonical form: indices strictly rising and below 32768, and no entry equal to what an unlisted index reads as. -/
abbrev Memory.wf (m : Memory) : Prop :=
  m.Pairwise (fun p q => p.1 < q.1) ∧ ∀ p ∈ m, p.1 < memWords ∧ p.2 ≠ unlistedWord

/-- The whole state of the block (10_state: "eight registers, the pc, 32768 memory words, two flags, the input queue and
the output log"). -/
structure State where
  /-- The general registers (10_state R20). -/
  x : RegFile
  /-- The program counter, a byte address of 16 bits, none of them forced (10_state R24, R26). -/
  pc : Word
  /-- HALT (10_state R27). -/
  halt : Bool
  /-- BLOCKED (10_state R28). -/
  blocked : Bool
  /-- The memory words (10_state R31). -/
  mem : Memory
  /-- INQ, the input queue, head first (10_state R32). -/
  inq : List Word
  /-- OUT, the output log, oldest first (10_state R33). -/
  out : List Word
  deriving DecidableEq, Repr

/-- What every reachable state satisfies: the memory is canonical, and "Input queue length is always ≤ capacity"
(10_state R35 (c)). -/
abbrev State.wf (s : State) : Prop := s.mem.wf ∧ s.inq.length ≤ inqCap

/-- The registers of 10_state R36: all zero. -/
def RegFile.zero : RegFile :=
  { x1 := 0, x2 := 0, x3 := 0, x4 := 0, x5 := 0, x6 := 0, x7 := 0 }

/-- The machine right after reset with the empty image and `mem_init = 0` (10_state R36, 70_reset_and_hazards R230; the
instance of `mem_init` is a DESIGN CHOICE, log entry 2). Reset with any image and any `mem_init` is `State.resetWith`. -/
def State.reset : State :=
  { x := RegFile.zero, pc := 0, halt := false, blocked := false, mem := [], inq := [], out := [] }

/-- The fatal errors of a step, `Fault(kind, pc)` (00_scope R12, 60_exceptions R205): the step changes nothing. `pc` is the
pc at the start of the step. -/
inductive Fault where
  /-- `UnalignedAccess`: raised by the fetch at an odd pc, and by `lw` and `sw` at an odd effective address `addr`
  (60_exceptions R201). Safe: the spec stops the step here too. -/
  | unalignedAccess (pc addr : Word)
  /-- `MalformedInstruction`: raised by the decoder for a register-register word whose bits 6 to 3 are not zero
  (60_exceptions R202). Safe: the spec stops the step here too. -/
  | malformedInstruction (pc bits : Word)
  deriving DecidableEq, Repr

/-- The kind of a fault (60_exceptions R200). -/
def Fault.kind : Fault → ErrorKind
  | .unalignedAccess _ _ => .unalignedAccess
  | .malformedInstruction _ _ => .malformedInstruction

/-- "the PC value at failure" (60_exceptions R205). -/
def Fault.pc : Fault → Word
  | .unalignedAccess pc _ => pc
  | .malformedInstruction pc _ => pc

/-- Refusals of the model. -/
inductive Refusal where
  /-- An instruction of the table without a meaning. No arm of `exec` answers it: every instruction is modelled. Safe. -/
  | notModelled (mnemonic : String)
  deriving DecidableEq, Repr

/-- What a step or a meaning answers. -/
abbrev Result := Host.Outcome State Fault Refusal

end Sys2Proof.Machine
end

