-- ==== Sys2Proof/Machine/Ops.lean ====
section
/-! DEFINITION. The named operations over registers, memory and the ports, and fault entry (10_state, 20_memory, 60_exceptions R205). -/

namespace Sys2Proof.Machine

/-! ### Registers -/

/-- A read of a general register: `x[0]` "always yield[s] 0" (10_state R21). -/
def RegFile.read (x : RegFile) (r : RegNum) : Word :=
  match r.toNat with
  | 0 => 0
  | 1 => x.x1
  | 2 => x.x2
  | 3 => x.x3
  | 4 => x.x4
  | 5 => x.x5
  | 6 => x.x6
  | _ => x.x7

/-- A write of a general register: "no-op if `r == 0`" (10_state R22). -/
def RegFile.write (x : RegFile) (r : RegNum) (v : Word) : RegFile :=
  match r.toNat with
  | 0 => x
  | 1 => { x with x1 := v }
  | 2 => { x with x2 := v }
  | 3 => { x with x3 := v }
  | 4 => { x with x4 := v }
  | 5 => { x with x5 := v }
  | 6 => { x with x6 := v }
  | _ => { x with x7 := v }

/-- `x[r]` (00_scope R11). -/
def State.reg (s : State) (r : RegNum) : Word := s.x.read r

/-- `x[r] <- v` (00_scope R11). -/
def State.setReg (s : State) (r : RegNum) (v : Word) : State := { s with x := s.x.write r v }

/-! ### Memory -/

/-- The word at a word index. -/
def Memory.get : Memory → Nat → Word
  | [], _ => unlistedWord
  | (j, u) :: m, i => if i = j then u else Memory.get m i

/-- A new entry at its place in the rising order. -/
def Memory.insertEntry : Memory → Nat → Word → Memory
  | [], i, v => [(i, v)]
  | (j, u) :: m, i, v => if i < j then (i, v) :: (j, u) :: m else (j, u) :: Memory.insertEntry m i v

/-- A memory without its entry at an index. -/
def Memory.erase (m : Memory) (i : Nat) : Memory := m.filter (fun p => p.1 ≠ i)

/-- The memory with the word at one index replaced, in canonical form. -/
def Memory.set (m : Memory) (i : Nat) (v : Word) : Memory :=
  if v = unlistedWord then Memory.erase m i else Memory.insertEntry (Memory.erase m i) i v

/-- Words installed one after another from an index on (70_reset_and_hazards R230 to R232). -/
def Memory.install (m : Memory) (i : Nat) : List Word → Memory
  | [] => m
  | w :: ws => Memory.install (Memory.set m i w) (i + 1) ws

/-- The canonical entries of the first `n` words, each given by a function of its index. -/
def Memory.entriesOf (n : Nat) (f : Nat → Word) : Memory :=
  ((List.range n).map (fun i => (i, f i))).filter (fun p => p.2 ≠ unlistedWord)

/-- The memory whose every word is given by a function of its index, such as `mem_init` (00_scope R6). -/
def Memory.ofFn (f : Nat → Word) : Memory := Memory.entriesOf memWords f

/-- The word index of a byte address: `(addr >> 1) mod 32768` (20_memory R40). -/
def wordIndex (addr : Word) : Nat := (addr >>> 1).toNat % memWords

/-- `addr[0] = 1`: no word has this address (20_memory R42). -/
def isOdd (addr : Word) : Bool := addr.getLsbD 0

/-- `MemRead(addr, 2)` (20_memory R43): the memory array and nothing else, also at address 0. -/
def memRead (m : Memory) (addr : Word) : Except Raised Word :=
  if isOdd addr then .error (.unalignedAccess addr) else .ok (Memory.get m (wordIndex addr))

/-- `MemWrite(addr, 2, v)` (20_memory R44). -/
def memWrite (m : Memory) (addr v : Word) : Except Raised Memory :=
  if isOdd addr then .error (.unalignedAccess addr) else .ok (Memory.set m (wordIndex addr) v)

/-! ### The ports at data address 0 -/

/-- `InPop()` (20_memory R47): the head of the queue and the state without it; `none` when the queue is empty. -/
def State.inPop (s : State) : Option (Word × State) :=
  match s.inq with
  | [] => none
  | v :: q => some (v, { s with inq := q })

/-- `OutPush(v)` (20_memory R48). -/
def State.outPush (s : State) (v : Word) : State := { s with out := s.out ++ [v] }

/-! ### Fetch and fault entry -/

/-- The instruction word at the pc (45_engine R151): `MEM[0]` at pc 0, never the port (20_memory R46). -/
def State.fetch (s : State) : Except Raised Word := memRead s.mem s.pc

/-- The fault a raised error becomes in a step whose pc is `pc` (00_scope R12). -/
def Raised.toFault (pc : Word) : Raised → Fault
  | .unalignedAccess addr => .unalignedAccess pc addr
  | .malformedInstruction bits => .malformedInstruction pc bits

/-- Fault entry (60_exceptions R205): the step ends with `Fault(kind, pc)`; nothing is saved, nothing is changed, control
goes nowhere. There is no return from it (R206). -/
def State.faultEntry (s : State) (r : Raised) : Result := .fault (Raised.toFault s.pc r)

/-! ### Placing a word to fetch -/

/-- The state with `bits` at the word its next step fetches. The fetch needs HALT clear and an even pc (45_engine R150,
R151), so both are made so (log entry 3). -/
def State.placeFetchWord (s : State) (bits : Word) : State :=
  let pc := s.pc &&& 0xFFFE#16
  { s with pc := pc, halt := false, mem := Memory.set s.mem (wordIndex pc) bits }

end Sys2Proof.Machine
end

