-- ==== Sys2Proof/Machine/Operands.lean ====
section
/-! DEFINITION. The operand forms: the values an instruction computes from its operands (42_arithmetic, 43_load_store_io R129, 44_control). -/

namespace Sys2Proof.Machine

/-- `ea = x[b] + simm` in Word arithmetic (43_load_store_io R129; the port test sees the wrapped sum, D2). -/
def State.effectiveAddress (s : State) (b : RegNum) (simm : Word) : Word := s.reg b + simm

/-- `nextPC` without a taken branch: pc + 2 modulo 65536 (10_state R25). -/
def State.nextPC (s : State) : Word := s.pc + wordSize

/-- `nextPC + simm` (44_control R140): the byte offset added to the next pc, not scaled and not masked (R141). -/
def State.branchTarget (s : State) (simm : Word) : Word := s.nextPC + simm

/-- `(imm << 6) & 0xFFC0` (42_arithmetic R122). -/
def luiValue (imm : Word) : Word := (imm <<< 6) &&& 0xFFC0#16

/-- `x[b] + x[c]` modulo 65536 (42_arithmetic R120). -/
def addValue (u v : Word) : Word := u + v

/-- `~(x[b] & x[c])` on all 16 bits (42_arithmetic R121). -/
def nandValue (u v : Word) : Word := ~~~(u &&& v)

/-- The halt bit `simm[0]` of a `jalr` (30_encoding R68, 44_control R142). -/
def haltBit (simm : Word) : Bool := simm.getLsbD 0

end Sys2Proof.Machine
end

