-- ==== Sys2Proof/Machine/Flags.lean ====
section
/-! DEFINITION. The two flags HALT and BLOCKED (10_state R27, R28) and the completion of a step. There are no condition codes (R29). -/

namespace Sys2Proof.Machine

/-- HALT <- 1 (10_state R27, 44_control R142). -/
def State.setHalt (s : State) : State := { s with halt := true }

/-- BLOCKED <- 1 (10_state R28, 43_load_store_io R130). -/
def State.setBlocked (s : State) : State := { s with blocked := true }

/-- The end of a step that completes: `pc <- nextPC`, BLOCKED <- 0 (45_engine R150, R155; D4). -/
def State.complete (s : State) (nextPC : Word) : State := { s with pc := nextPC, blocked := false }

end Sys2Proof.Machine
end

