-- ==== Sys2Proof/Machine/Arithmetic.lean ====
section
/-! DEFINITION. add, addi, nand, lui (42_arithmetic). -/

namespace Sys2Proof.Machine

/-- The shape of the four: one register write, then the next instruction (42_arithmetic). -/
def State.writeAndAdvance (s : State) (a : RegNum) (v : Word) : Result :=
  .next ((s.setReg a v).complete s.nextPC)

/-- `add` (42_arithmetic R120). -/
def execAdd (a b c : RegNum) (s : State) : Result := s.writeAndAdvance a (addValue (s.reg b) (s.reg c))

/-- `nand` (42_arithmetic R121). -/
def execNand (a b c : RegNum) (s : State) : Result := s.writeAndAdvance a (nandValue (s.reg b) (s.reg c))

/-- `lui` (42_arithmetic R122). -/
def execLui (a : RegNum) (imm : Word) (s : State) : Result := s.writeAndAdvance a (luiValue imm)

/-- `addi` (42_arithmetic R123). -/
def execAddi (a b : RegNum) (simm : Word) (s : State) : Result := s.writeAndAdvance a (addValue (s.reg b) simm)

end Sys2Proof.Machine
end

