-- ==== Sys2Proof/Machine/Control.lean ====
section
/-! DEFINITION. beq, jalr, hlt (44_control). -/

namespace Sys2Proof.Machine

/-- `beq` (44_control R140). An odd target is not checked here; the next fetch finds it (R141, D5). -/
def execBeq (a b : RegNum) (simm : Word) (s : State) : Result :=
  .next (s.complete (if s.reg a = s.reg b then s.branchTarget simm else s.nextPC))

/-- The variant `Jalr` (44_control R142): HALT is set when the halt bit is 1; otherwise nothing but the diagnostic
`UnimplementedFeature` (`execDiagnostics`). No register is read or written and nothing jumps. The pc advances on both paths. -/
def State.haltOrNothing (s : State) (simm : Word) : Result :=
  .next ((if haltBit simm then s.setHalt else s).complete s.nextPC)

/-- `jalr` (44_control R142). -/
def execJalr (_a _b : RegNum) (simm : Word) (s : State) : Result := s.haltOrNothing simm

/-- `hlt` (44_control R143): "a `jalr` ... executed by rule R142". -/
def execHlt (_a _b : RegNum) (simm : Word) (s : State) : Result := s.haltOrNothing simm

end Sys2Proof.Machine
end

