-- ==== Sys2Proof/Machine/LoadStore.lean ====
section
/-! DEFINITION. lw, sw and the I/O arbiter (43_load_store_io). -/

namespace Sys2Proof.Machine

/-- `lw` (43_load_store_io R130). At effective address 0 the input port: with an empty queue BLOCKED is set and nothing
else changes, else the head is popped. Elsewhere `MemRead`. -/
def execLw (a b : RegNum) (simm : Word) (s : State) : Result :=
  let ea := s.effectiveAddress b simm
  if ea = portAddr then
    match s.inPop with
    | none => .next s.setBlocked
    | some (v, s') => .next ((s'.setReg a v).complete s.nextPC)
  else
    match memRead s.mem ea with
    | .error r => s.faultEntry r
    | .ok v => .next ((s.setReg a v).complete s.nextPC)

/-- `sw` (43_load_store_io R131). At effective address 0 the output port, elsewhere `MemWrite`. -/
def execSw (a b : RegNum) (simm : Word) (s : State) : Result :=
  let ea := s.effectiveAddress b simm
  if ea = portAddr then .next ((s.outPush (s.reg a)).complete s.nextPC)
  else
    match memWrite s.mem ea (s.reg a) with
    | .error r => s.faultEntry r
    | .ok m => .next ({ s with mem := m }.complete s.nextPC)

end Sys2Proof.Machine
end

