-- ==== Sys2Proof/Machine/Dispatch.lean ====
section
/-! DEFINITION. The dispatch of a decoded instruction to its meaning (45_engine R154). -/

namespace Sys2Proof.Machine

def exec (i : Instr) (s : State) : Host.Outcome State Fault Refusal :=
  match i with
  | .add a b c => Sys2Proof.Machine.execAdd a b c s
  | .addi a b simm => Sys2Proof.Machine.execAddi a b simm s
  | .nand a b c => Sys2Proof.Machine.execNand a b c s
  | .lui a imm => Sys2Proof.Machine.execLui a imm s
  | .lw a b simm => Sys2Proof.Machine.execLw a b simm s
  | .sw a b simm => Sys2Proof.Machine.execSw a b simm s
  | .beq a b simm => Sys2Proof.Machine.execBeq a b simm s
  | .jalr a b simm => Sys2Proof.Machine.execJalr a b simm s
  | .hlt a b simm => Sys2Proof.Machine.execHlt a b simm s

end Sys2Proof.Machine
end

