-- ==== Sys2Proof/Machine/Engine.lean ====
section
/-! DEFINITION. The execution engine: the order of a step, the result of a step and its diagnostics (45_engine R150 to R156, 60_exceptions R207, R210). -/

namespace Sys2Proof.Machine

/-- `step()` (45_engine R150), in the order of 60_exceptions R210: nothing at all when HALT is set (R153, D3); then the
fetch (R151), the decoder (R152), the instruction. -/
def engineStep (s : State) : Result :=
  if s.halt then .next s
  else
    match s.fetch with
    | .error r => s.faultEntry r
    | .ok bits =>
      match decode bits with
      | .error r => s.faultEntry r
      | .ok i => exec i s

/-- The result of a step (00_scope R12). -/
inductive StepResult where
  | continued
  | halted
  | blockedOnInput
  | fault (f : Fault)
  /-- The step was refused by the model; no step of this model is (no arm of `exec` refuses). -/
  | refused (r : Refusal)
  deriving DecidableEq, Repr

/-- The spec's result read off the outcome (45_engine R150, R156; log entry 6): after a step that did not fault, `Halted`
when HALT is 1, `BlockedOnInput` when BLOCKED is 1 (a completing step clears it), else `Continued`. -/
def StepResult.ofOutcome : Result → StepResult
  | .next t => if t.halt then .halted else if t.blocked then .blockedOnInput else .continued
  | .fault f => .fault f
  | .refused r => .refused r

/-- The state after a step: a step that faults or is refused leaves the state as it was (60_exceptions R205). -/
def State.afterOutcome (s : State) : Result → State
  | .next t => t
  | .fault _ => s
  | .refused _ => s

/-- The diagnostics an executed instruction emits (44_control R142, 60_exceptions R207): `UnimplementedFeature` for a
`jalr` whose halt bit is 0. -/
def execDiagnostics (i : Instr) (pc bits : Word) : List Diagnostic :=
  match i with
  | .jalr _ _ simm => if haltBit simm then [] else [.unimplementedFeature pc bits]
  | .hlt _ _ simm => if haltBit simm then [] else [.unimplementedFeature pc bits]
  | .add _ _ _ => []
  | .addi _ _ _ => []
  | .nand _ _ _ => []
  | .lui _ _ => []
  | .lw _ _ _ => []
  | .sw _ _ _ => []
  | .beq _ _ _ => []

/-- The diagnostics of a step: the decoder's, then the instruction's (45_engine R156, 60_exceptions R207, R208). They are
an output beside the step, not state (D14; log entry 8). -/
def stepDiagnostics (s : State) : List Diagnostic :=
  if s.halt then []
  else
    match s.fetch with
    | .error _ => []
    | .ok bits =>
      match decode bits with
      | .error _ => []
      | .ok i => decodeDiagnostics bits ++ execDiagnostics i s.pc bits

end Sys2Proof.Machine
end

