-- ==== Sys2Proof/Machine/Step.lean ====
section
/-! DEFINITION. One step of the machine, and the placing of the word it fetches. -/

namespace Sys2Proof.Machine

/-- `step()` (45_engine R150). -/
def step (s : State) : Host.Outcome State Fault Refusal := engineStep s

/-- `s` with the instruction whose bits are the low `nbits` bits of `w` stored where `step` fetches (log entry 3). -/
def State.withFetchWord (s : State) (nbits w : Nat) : State :=
  s.placeFetchWord (BitVec.ofNat 16 (w % 2 ^ nbits))

end Sys2Proof.Machine
end

