-- ==== Sys2Proof/Machine/Disassembler.lean ====
section
/-! DEFINITION. The disassembler (46_disassembler). -/

namespace Sys2Proof.Machine

/-- One decimal digit. -/
def digitChar (d : Nat) : Char := Char.ofNat (48 + d % 10)

/-- The decimal numeral of a number of at most `fuel` digits, in front of `rest`. -/
def decimalOnto : Nat → Nat → List Char → List Char
  | 0, _, rest => rest
  | fuel + 1, n, rest =>
    if n < 10 then digitChar n :: rest else decimalOnto fuel (n / 10) (digitChar n :: rest)

/-- Unsigned decimal of a Word: five digits are enough. -/
def unsignedText (v : Word) : List Char := decimalOnto 5 v.toNat []

/-- "values ≥ 32768 are shown as `value − 65536`", with an ASCII hyphen directly before the digits (46_disassembler R182). -/
def signedText (v : Word) : List Char :=
  if signed v < 0 then '-' :: decimalOnto 5 (signed v).natAbs [] else decimalOnto 5 (signed v).natAbs []

/-- `R` and the register number in decimal (46_disassembler R180). -/
def regText (r : RegNum) : List Char := ['R', digitChar r.toNat]

/-- The separator of operands: a comma and one space (46_disassembler R180). -/
def commaText : List Char := [',', ' ']

/-- Three registers. -/
def operandsRRR (a b c : RegNum) : List Char := regText a ++ commaText ++ regText b ++ commaText ++ regText c

/-- Two registers and a signed immediate. -/
def operandsRRI (a b : RegNum) (simm : Word) : List Char :=
  regText a ++ commaText ++ regText b ++ commaText ++ signedText simm

/-- The text of a decoded instruction as characters (46_disassembler R181, D15). -/
def disassembleChars : Variant → List Char
  | .add a b c => ['a', 'd', 'd', ' '] ++ operandsRRR a b c
  | .nand a b c => ['n', 'a', 'n', 'd', ' '] ++ operandsRRR a b c
  | .lui a imm => ['l', 'u', 'i', ' '] ++ regText a ++ commaText ++ unsignedText imm
  | .addi a b simm => ['a', 'd', 'd', 'i', ' '] ++ operandsRRI a b simm
  | .lw a b simm => ['l', 'w', ' '] ++ operandsRRI a b simm
  | .sw a b simm => ['s', 'w', ' '] ++ operandsRRI a b simm
  | .beq a b simm => ['b', 'e', 'q', ' '] ++ operandsRRI a b simm
  | .jalr a b simm =>
    if simm = 0#16 then ['j', 'a', 'l', 'r', ' '] ++ regText a ++ commaText ++ regText b
    else if a = 0#3 ∧ b = 0#3 ∧ simm = 1#16 then ['h', 'l', 't']
    else ['j', 'a', 'l', 'r', ' '] ++ operandsRRI a b simm

/-- `disassemble(instr) -> string` (46_disassembler R180). -/
def disassemble (v : Variant) : String := String.ofList (disassembleChars v)

end Sys2Proof.Machine
end

