-- ==== Sys2Proof/Machine/HostInterface.lean ====
section
/-! DEFINITION. Reset with an image, and the host's commands (45_engine R157 to R168, 70_reset_and_hazards R230 to R232). -/

namespace Sys2Proof.Machine

/-- Why a command of the host fails. None of these is a fault of the core. -/
inductive HostError where
  /-- `pushInput` on a full queue (45_engine R162, 60_exceptions R204). -/
  | inputQueueFull
  /-- An image of more than 32768 words, which is refused (70_reset_and_hazards R231, D10). The name is the model's. -/
  | imageTooLong
  /-- `disassembleAt` at an odd address or of a malformed word (45_engine R168, D16). -/
  | notDisassembled (r : Raised)
  deriving DecidableEq, Repr

/-- `reset(image)` (70_reset_and_hazards R230), for every value of the open parameter `mem_init` (D8). -/
def State.resetWith (image : List Word) (memInit : Nat → Word) : Except HostError State :=
  if image.length ≤ memWords then .ok { State.reset with mem := Memory.install (Memory.ofFn memInit) 0 image }
  else .error .imageTooLong

/-- `loadProgram(words)`, the warm restart (70_reset_and_hazards R232): memory from 0, registers, pc and flags; the rest of
memory, INQ and OUT keep their values (D9). -/
def State.loadProgram (s : State) (words : List Word) : Except HostError State :=
  if words.length ≤ memWords then
    .ok { s with x := RegFile.zero, pc := 0, halt := false, blocked := false, mem := Memory.install s.mem 0 words }
  else .error .imageTooLong

/-- `step()` as a command: the state after it and its result (45_engine R150, R165). -/
def State.stepCommand (s : State) : State × StepResult :=
  (s.afterOutcome (step s), StepResult.ofOutcome (step s))

/-- `runToHalt(maxSteps)` (45_engine R157): step until a result other than `Continued`; `Continued` when the budget is used
up (D7). -/
def State.runToHalt (s : State) : Nat → State × StepResult
  | 0 => (s, .continued)
  | n + 1 =>
    match s.stepCommand with
    | (t, .continued) => State.runToHalt t n
    | (t, r) => (t, r)

/-- The diagnostics of the steps `runToHalt` takes, in order (60_exceptions R207). -/
def State.runDiagnostics (s : State) : Nat → List Diagnostic
  | 0 => []
  | n + 1 =>
    match s.stepCommand with
    | (t, .continued) => stepDiagnostics s ++ State.runDiagnostics t n
    | (_, _) => stepDiagnostics s

/-- `pushInput(v)` (45_engine R162). -/
def State.pushInput (s : State) (v : Word) : Except HostError State :=
  if s.inq.length = inqCap then .error .inputQueueFull else .ok { s with inq := s.inq ++ [v] }

/-- `drainAvailableInputs()`, a "non-destructive peek" (45_engine R163). -/
def State.drainAvailableInputs (s : State) : List Word := s.inq

/-- `outputs()` (45_engine R164). -/
def State.outputs (s : State) : List Word := s.out

/-- `registers()`, `x[0]` to `x[7]` in that order (45_engine R166). -/
def State.registers (s : State) : List Word :=
  [s.reg 0, s.reg 1, s.reg 2, s.reg 3, s.reg 4, s.reg 5, s.reg 6, s.reg 7]

/-- `programCounter()` (45_engine R166). -/
def State.programCounter (s : State) : Word := s.pc

/-- `disassembleAt(address)` (45_engine R168): the word in memory, never the port; a failure is the command's result. -/
def State.disassembleAt (s : State) (addr : Word) : Except HostError String :=
  match memRead s.mem addr with
  | .error r => .error (.notDisassembled r)
  | .ok bits =>
    match decodeVariant bits with
    | .error r => .error (.notDisassembled r)
    | .ok v => .ok (disassemble v)

/-- "The commands the host has, all of them" (45_engine R160). -/
inductive HostCommand where
  | loadProgram (words : List Word)
  | step
  | runToHalt (maxSteps : Nat)
  | pushInput (v : Word)
  | drainAvailableInputs
  | outputs
  | registers
  | programCounter
  | disassembleAt (addr : Word)
  deriving DecidableEq, Repr

/-- What a command answers. -/
inductive Response where
  /-- The command succeeded and returns nothing. -/
  | done
  /-- The result of `step` or `runToHalt`, with the diagnostics emitted. -/
  | stepped (r : StepResult) (diags : List Diagnostic)
  | words (ws : List Word)
  | word (w : Word)
  | text (t : String)
  | failed (e : HostError)
  deriving DecidableEq, Repr

/-- A command that yields a new state, or fails and changes nothing. -/
def State.orUnchanged (s : State) : Except HostError State → State × Response
  | .ok t => (t, .done)
  | .error e => (s, .failed e)

/-- A command performed: each is atomic, takes the state and returns it (00_scope R11, 45_engine R160). -/
def State.perform (s : State) : HostCommand → State × Response
  | .loadProgram words => s.orUnchanged (s.loadProgram words)
  | .step => (s.stepCommand.1, .stepped s.stepCommand.2 (stepDiagnostics s))
  | .runToHalt n => ((s.runToHalt n).1, .stepped (s.runToHalt n).2 (s.runDiagnostics n))
  | .pushInput v => s.orUnchanged (s.pushInput v)
  | .drainAvailableInputs => (s, .words s.drainAvailableInputs)
  | .outputs => (s, .words s.outputs)
  | .registers => (s, .words s.registers)
  | .programCounter => (s, .word s.programCounter)
  | .disassembleAt addr =>
    match s.disassembleAt addr with
    | .ok t => (s, .text t)
    | .error e => (s, .failed e)

/-- The state after a sequence of commands. -/
def State.performAll (s : State) : List HostCommand → State
  | [] => s
  | c :: cs => State.performAll (s.perform c).1 cs

end Sys2Proof.Machine
end

