-- ==== Sys2Proof/Safety.lean ====
section
/-! DEFINITION. What a safe run is, and the words that claims about a step are stated in: which parts of the state it leaves alone. -/

namespace Sys2Proof.Machine

/-- The word of format RRR, its fields side by side: opcode, regA, regB, four zero bits, regC (30_encoding R62). -/
def wordRRR (opcode a b c : RegNum) : Word := (opcode ++ a ++ b ++ 0#4 ++ c).setWidth 16

/-- The word of format RRI: opcode, regA, regB, imm7 (30_encoding R63). -/
def wordRRI (opcode a b : RegNum) (imm7 : BitVec 7) : Word := (opcode ++ a ++ b ++ imm7).setWidth 16

/-- The word of format RI: opcode, regA, imm10 (30_encoding R64). -/
def wordRI (opcode a : RegNum) (imm10 : BitVec 10) : Word := (opcode ++ a ++ imm10).setWidth 16

/-- A run from `s` never ends in a fatal error, whatever its budget (60_exceptions R205). -/
def State.RunsSafely (s : State) : Prop := ∀ n f, (s.runToHalt n).2 ≠ .fault f

/-- The instruction the next step executes; `none` when HALT is set, the fetch fails or the word is malformed
(45_engine R150). -/
def State.nextInstr (s : State) : Option Instr :=
  if s.halt then none
  else
    match s.fetch with
    | .error _ => none
    | .ok bits => (decode bits).toOption

/-- The state after `n` step commands. -/
def State.stepTimes (s : State) : Nat → State
  | 0 => s
  | n + 1 => State.stepTimes s.stepCommand.1 n

/-- A command that is not `loadProgram`. -/
def HostCommand.isLoad : HostCommand → Bool
  | .loadProgram _ => true
  | .step => false
  | .runToHalt _ => false
  | .pushInput _ => false
  | .drainAvailableInputs => false
  | .outputs => false
  | .registers => false
  | .programCounter => false
  | .disassembleAt _ => false

/-- A command that makes the core execute: "They are the only commands that make the core execute" (45_engine R165). -/
def HostCommand.executes : HostCommand → Bool
  | .loadProgram _ => false
  | .step => true
  | .runToHalt _ => true
  | .pushInput _ => false
  | .drainAvailableInputs => false
  | .outputs => false
  | .registers => false
  | .programCounter => false
  | .disassembleAt _ => false

/-- No register differs. -/
def SameRegs (s t : State) : Prop := ∀ r, t.reg r = s.reg r

/-- No register but `a` differs, and `a` reads `v`, unless `a` is the hard-wired `x[0]` (10_state R22). -/
def RegWritten (s t : State) (a : RegNum) (v : Word) : Prop :=
  (a ≠ 0 → t.reg a = v) ∧ ∀ r, r ≠ a ∨ r = 0 → t.reg r = s.reg r

/-- No word of memory differs: every address reads as before, word 0 and the failing odd addresses included. -/
def SameMem (s t : State) : Prop := ∀ addr, memRead t.mem addr = memRead s.mem addr

/-- No word of memory differs but the one at the even address `ea`, which reads `v`. -/
def MemWritten (s t : State) (ea v : Word) : Prop :=
  ∀ addr, memRead t.mem addr = if addr = ea then .ok v else memRead s.mem addr

/-- Neither the input queue nor the output log differs. -/
def SamePorts (s t : State) : Prop := t.inq = s.inq ∧ t.out = s.out

end Sys2Proof.Machine
end

