-- ==== Sys2Proof/Certificates/Slice0/Obligations.lean ====
section
/-! DEFINITION. The statements for the provers. -/

open Sys2Proof Sys2Proof.Machine

/-! ### Codec, decoder, encoder -/

/-- Every well-formed instruction, all operands at all values, decodes back from its word. The split of `Jalr` words into
`jalr` and `hlt` is the model's (log entry 4). -/
def Obligations.DecodeOfEncode : Prop :=
  ∀ i : Instr, i.WellFormed → decode (encode i) = .ok i

/-- Every word that decodes gives a well-formed instruction, whose encoding is that word (log entry 4). -/
def Obligations.EncodeOfDecode : Prop :=
  ∀ (w : Word) (i : Instr), decode w = .ok i → i.WellFormed ∧ encode i = w

/-- 30_encoding R84, (a) and (b). -/
def Obligations.EncoderDecoderRoundTrip : Prop :=
  (∀ (w : Word) (v : Variant), decodeVariant w = .ok v → encodeVariant v = w) ∧
  (∀ a b simm, encodeVariant (.jalr a b simm) =
    0xE000#16 ||| (a.setWidth 16 <<< 10) ||| (b.setWidth 16 <<< 7) ||| (simm &&& 0x7F#16)) ∧
  (∀ a b c, decodeVariant (asmAdd a b c) = .ok (.add a b c)) ∧
  (∀ a b c, decodeVariant (asmNand a b c) = .ok (.nand a b c)) ∧
  (∀ a b i w, asmAddi a b i = .ok w → decodeVariant w = .ok (.addi a b ((BitVec.ofInt 7 i).signExtend 16))) ∧
  (∀ a b i w, asmLw a b i = .ok w → decodeVariant w = .ok (.lw a b ((BitVec.ofInt 7 i).signExtend 16))) ∧
  (∀ a b i w, asmSw a b i = .ok w → decodeVariant w = .ok (.sw a b ((BitVec.ofInt 7 i).signExtend 16))) ∧
  (∀ a b i w, asmBeq a b i = .ok w → decodeVariant w = .ok (.beq a b ((BitVec.ofInt 7 i).signExtend 16))) ∧
  (∀ a i w, asmLui a i = .ok w → ∃ imm : Word, (imm.toNat : Int) = i ∧ decodeVariant w = .ok (.lui a imm)) ∧
  (∀ a b, decodeVariant (asmJalr a b) = .ok (.jalr a b 0)) ∧
  decodeVariant asmHlt = .ok (.jalr 0 0 1)

/-- 41_decoder R105, R107 to R112 (and `Jalr` of R106): the word is written as the concatenation of its fields, and the
immediates as `BitVec`'s own sign and zero extension. -/
def Obligations.DecoderArms : Prop :=
  (∀ (a : RegNum) (imm : BitVec 10), decodeVariant (wordRI 0b011#3 a imm) = .ok (.lui a (imm.zeroExtend 16))) ∧
  (∀ (a b : RegNum) (imm : BitVec 7), decodeVariant (wordRRI 0b111#3 a b imm) = .ok (.jalr a b (imm.signExtend 16))) ∧
  (∀ (a b : RegNum) (imm : BitVec 7), decodeVariant (wordRRI 0b001#3 a b imm) = .ok (.addi a b (imm.signExtend 16))) ∧
  (∀ (a b : RegNum) (imm : BitVec 7), decodeVariant (wordRRI 0b101#3 a b imm) = .ok (.sw a b (imm.signExtend 16))) ∧
  (∀ (a b : RegNum) (imm : BitVec 7), decodeVariant (wordRRI 0b100#3 a b imm) = .ok (.lw a b (imm.signExtend 16))) ∧
  (∀ (a b : RegNum) (imm : BitVec 7), decodeVariant (wordRRI 0b110#3 a b imm) = .ok (.beq a b (imm.signExtend 16))) ∧
  (∀ a b c : RegNum, decodeVariant (wordRRR 0b000#3 a b c) = .ok (.add a b c)) ∧
  (∀ a b c : RegNum, decodeVariant (wordRRR 0b010#3 a b c) = .ok (.nand a b c))

/-- 41_decoder R113: exactly the register-register words with `bits[6:3] != 0` fail, by name, and in a step nothing
changes. -/
def Obligations.MalformedWordsFail : Prop :=
  (∀ (w : Word) (r : Raised), decode w = .error r ↔
    (w.extractLsb' 13 3 = 0b000#3 ∨ w.extractLsb' 13 3 = 0b010#3) ∧ w.extractLsb' 3 4 ≠ 0#4 ∧
      r = .malformedInstruction w) ∧
  (∀ (s : State) (w : Word), s.halt = false → s.fetch = .ok w → w &&& 0xA000#16 = 0#16 → w &&& 0x0078#16 ≠ 0#16 →
    s.stepCommand = (s, .fault (.malformedInstruction s.pc w)))

/-- 30_encoding R71: a word decodes to an instruction of a row exactly when it has that row's match under its mask, and to
no other row. -/
def Obligations.RowsPartitionLegalWords : Prop :=
  ∀ (w : Word) (j : Instr),
    w &&& j.rowMask = j.rowMatch ↔ ∃ i, decode w = .ok i ∧ i.rowMask = j.rowMask ∧ i.rowMatch = j.rowMatch

/-- 40_bitfield_codec R90: the field as a number and bit by bit. -/
def Obligations.ExtractFieldIsTheField : Prop :=
  ∀ (word : Word) (startBit width : Nat) (h : startBit + width ≤ 16),
    (extractField word startBit width h).toNat = word.toNat / 2 ^ startBit % 2 ^ width ∧
    (∀ i, (extractField word startBit width h).getLsbD i = (decide (i < width) && word.getLsbD (startBit + i))) ∧
    (1 ≤ width → extractField word startBit width h = (word.extractLsb' startBit width).setWidth 16)

/-- 40_bitfield_codec R92: the value `sext` of bits `s` to 0, and bit by bit. Bits above the sign bit are overwritten
(decision D21). -/
def Obligations.SignExtendCopiesTheSignBit : Prop :=
  ∀ (value : Word) (s : Nat) (h : s ≤ 15),
    signExtend value s h = (value.extractLsb' 0 (s + 1)).signExtend 16 ∧
    ∀ i, i < 16 → (signExtend value s h).getLsbD i = value.getLsbD (min i s)

/-- 40_bitfield_codec R94 (marked derived there): the shift circuit equals both functions on their whole domains. -/
def Obligations.ShifterEqualsCodec : Prop :=
  (∀ (word : Word) (startBit width : Nat) (h : startBit + width ≤ 16), 1 ≤ width →
    extractField word startBit width h = shiftExtractField word startBit width) ∧
  (∀ (value : Word) (s : Nat) (h : s ≤ 15), signExtend value s h = shiftSignExtend value s)

/-- 30_encoding R77: the range check and the word of the four constructors with a signed immediate. -/
def Obligations.SignedImmediateEncoders : Prop :=
  ∀ (a b : RegNum) (i : Int),
    (-64 ≤ i ∧ i ≤ 63 →
      asmAddi a b i = .ok (wordRRI 0b001#3 a b (BitVec.ofInt 7 i)) ∧
      asmLw a b i = .ok (wordRRI 0b100#3 a b (BitVec.ofInt 7 i)) ∧
      asmSw a b i = .ok (wordRRI 0b101#3 a b (BitVec.ofInt 7 i)) ∧
      asmBeq a b i = .ok (wordRRI 0b110#3 a b (BitVec.ofInt 7 i))) ∧
    (i < -64 ∨ 63 < i →
      asmAddi a b i = .error (.immediateOutOfRange i) ∧ asmLw a b i = .error (.immediateOutOfRange i) ∧
      asmSw a b i = .error (.immediateOutOfRange i) ∧ asmBeq a b i = .error (.immediateOutOfRange i))

/-- 30_encoding R76, R78, R79: the constructors that cannot fail. -/
def Obligations.TotalEncoders : Prop :=
  (∀ a b c : RegNum, asmAdd a b c = wordRRR 0b000#3 a b c) ∧
  (∀ a b c : RegNum, asmNand a b c = wordRRR 0b010#3 a b c) ∧
  (∀ a b : RegNum, asmJalr a b = wordRRI 0b111#3 a b 0#7) ∧
  asmHlt = 0xE001#16

/-- 30_encoding R80; the range check of `lui` is the spec's decision D17. -/
def Obligations.LuiEncoder : Prop :=
  ∀ (a : RegNum) (i : Int),
    (0 ≤ i ∧ i ≤ 1023 → asmLui a i = .ok (wordRI 0b011#3 a (BitVec.ofInt 10 i))) ∧
    (i < 0 ∨ 1023 < i → asmLui a i = .error (.immediateOutOfRange i))

/-- Words written out from the field layout (95_test_vectors A5, B2, B3), one for each instruction. -/
def Obligations.SampleWordsDecode : Prop :=
  decode 0b0000110010000010#16 = .ok (.add 3 1 2) ∧ decode 0b0010010011111111#16 = .ok (.addi 1 1 0xFFFF) ∧
  decode 0b0101011000000100#16 = .ok (.nand 5 4 4) ∧ decode 0b0110011110000000#16 = .ok (.lui 1 896) ∧
  decode 0b1001000010000010#16 = .ok (.lw 4 1 2) ∧ decode 0b1010010001111110#16 = .ok (.sw 1 0 0xFFFE) ∧
  decode 0b1100000001111100#16 = .ok (.beq 0 0 0xFFFC) ∧ decode 0b1110010100000000#16 = .ok (.jalr 1 2 0) ∧
  decode 0b1110000000000001#16 = .ok (.hlt 0 0 1)

/-! ### Reset and memory -/

/-- 70_reset_and_hazards R230, R231, for every image and every `mem_init` (D8); the refusal of a longer image is D10, and
the flags, INQ and OUT are what the spec derives. -/
def Obligations.ResetInstallsTheImage : Prop :=
  ∀ (image : List Word) (memInit : Nat → Word),
    (image.length ≤ 32768 → ∃ s, State.resetWith image memInit = .ok s ∧
      (∀ r, s.reg r = 0) ∧ s.pc = 0 ∧ s.halt = false ∧ s.blocked = false ∧ s.inq = [] ∧ s.out = [] ∧
      ∀ addr, isOdd addr = false →
        memRead s.mem addr = .ok (image.getD (addr.toNat / 2) (memInit (addr.toNat / 2)))) ∧
    (32768 < image.length → State.resetWith image memInit = .error .imageTooLong)

/-- `State.reset` is the reset with the empty image and `mem_init = 0`; that instance is the model's choice (log entry 2). -/
def Obligations.ResetStateIsTheZeroInstance : Prop :=
  State.resetWith [] (fun _ => 0) = .ok State.reset ∧ ∀ r, State.reset.reg r = 0

/-- The state after reset is well formed: canonical memory, and a queue of at most 10 Words. -/
def Obligations.ResetIsWellFormed : Prop :=
  State.reset.wf ∧ ∀ image memInit s, State.resetWith image memInit = .ok s → s.wf

/-- Every step keeps the canonical form of memory and the capacity of the queue (10_state R35 (c)), from every such state. -/
def Obligations.StepKeepsWellFormed : Prop :=
  ∀ s t : State, s.wf → step s = .next t → t.wf

/-- So does every sequence of host commands. -/
def Obligations.CommandsKeepWellFormed : Prop :=
  ∀ (s : State) (cs : List HostCommand), s.wf → (s.performAll cs).wf

/-- The canonical form is canonical: memories that read the same at every address are the same data. -/
def Obligations.CanonicalMemoryIsUnique : Prop :=
  ∀ m m' : Memory, m.wf → m'.wf → (∀ addr, memRead m addr = memRead m' addr) → m = m'

/-- 20_memory R43, R44, for every memory and address, address 0 included. -/
def Obligations.MemoryReadAndWrite : Prop :=
  ∀ (m : Memory) (addr v : Word),
    (addr.getLsbD 0 = true →
      memRead m addr = .error (.unalignedAccess addr) ∧ memWrite m addr v = .error (.unalignedAccess addr)) ∧
    (addr.getLsbD 0 = false →
      memRead m addr = .ok (Memory.get m (addr.toNat / 2)) ∧
      ∃ m', memWrite m addr v = .ok m' ∧
        (∀ j, Memory.get m' j = if j = addr.toNat / 2 then v else Memory.get m j) ∧
        ∀ b, memRead m' b = if b = addr then .ok v else memRead m b)

/-- 10_state R21, R22: `x[0]` reads 0, a write to it is discarded while the instruction's other effects take place (an `lw`
from the input port into it still removes the value), and a write to another register stores the Word there alone. -/
def Obligations.RegisterZeroIsHardwired : Prop :=
  (∀ s : State, s.reg 0 = 0 ∧ s.registers[0]? = some 0) ∧
  (∀ (s : State) (v : Word), s.setReg 0 v = s) ∧
  (∀ (s : State) (a r : RegNum) (v : Word), a ≠ 0 → (s.setReg a v).reg r = if r = a then v else s.reg r) ∧
  (∀ (s : State) (b : RegNum) (v : Word) (q : List Word), s.reg b = 0 → s.inq = v :: q →
    ∃ t, exec (.lw 0 b 0) s = .next t ∧ SameRegs s t ∧ t.inq = q ∧ t.pc = s.pc + 2)

/-! ### Instructions: result, completion and frame -/

/-- 42_arithmetic R120. That BLOCKED is cleared is the spec's decision D4 (10_state R28). -/
def Obligations.AddWritesTheSum : Prop :=
  ∀ (a b c : RegNum) (s : State),
    encode (.add a b c) = wordRRR 0b000#3 a b c ∧
    ∃ t, exec (.add a b c) s = .next t ∧ RegWritten s t a (s.reg b + s.reg c) ∧ t.pc = s.pc + 2 ∧
      t.halt = s.halt ∧ t.blocked = false ∧ SameMem s t ∧ SamePorts s t ∧
      (s.halt = false → StepResult.ofOutcome (exec (.add a b c) s) = .continued)

/-- 42_arithmetic R121. BLOCKED, the one part of the state not named here, is stated for every instruction in
`BlockedMeansWaitingForInput` (decision D4). -/
def Obligations.NandWritesTheComplement : Prop :=
  ∀ (a b c : RegNum) (s : State),
    encode (.nand a b c) = wordRRR 0b010#3 a b c ∧
    ∃ t, exec (.nand a b c) s = .next t ∧ RegWritten s t a (~~~(s.reg b &&& s.reg c)) ∧ t.pc = s.pc + 2 ∧
      t.halt = s.halt ∧ SameMem s t ∧ SamePorts s t ∧
      (s.halt = false → StepResult.ofOutcome (exec (.nand a b c) s) = .continued)

/-- 42_arithmetic R122, for every 10-bit immediate, with the full constant built by `lui` and `addi`. BLOCKED:
`BlockedMeansWaitingForInput`. -/
def Obligations.LuiLoadsTheUpperBits : Prop :=
  (∀ (a : RegNum) (imm : BitVec 10) (s : State),
    encode (.lui a (imm.setWidth 16)) = wordRI 0b011#3 a imm ∧
    ∃ t, exec (.lui a (imm.setWidth 16)) s = .next t ∧ RegWritten s t a ((imm ++ 0#6).setWidth 16) ∧ t.pc = s.pc + 2 ∧
      t.halt = s.halt ∧ SameMem s t ∧ SamePorts s t ∧
      (s.halt = false → StepResult.ofOutcome (exec (.lui a (imm.setWidth 16)) s) = .continued)) ∧
  (∀ (a : RegNum) (k : Word) (s : State), a ≠ 0 →
    ∃ t u, exec (.lui a ((k.extractLsb' 6 10).setWidth 16)) s = .next t ∧
      exec (.addi a a ((k.extractLsb' 0 6).setWidth 16)) t = .next u ∧ u.reg a = k)

/-- 42_arithmetic R123. BLOCKED: `BlockedMeansWaitingForInput`. -/
def Obligations.AddiAddsTheImmediate : Prop :=
  (∀ (a b : RegNum) (imm : BitVec 7), encode (.addi a b (imm.signExtend 16)) = wordRRI 0b001#3 a b imm) ∧
  ∀ (a b : RegNum) (simm : Word) (s : State),
    ∃ t, exec (.addi a b simm) s = .next t ∧ RegWritten s t a (s.reg b + simm) ∧ t.pc = s.pc + 2 ∧
      t.halt = s.halt ∧ SameMem s t ∧ SamePorts s t ∧
      (s.halt = false → StepResult.ofOutcome (exec (.addi a b simm) s) = .continued)

/-- 43_load_store_io R129, R130: the blocked read, the pop, the unaligned fault and the load. That the port test sees the
wrapped address is decision D2, that BLOCKED is cleared is decision D4. -/
def Obligations.LwReadsPortOrMemory : Prop :=
  (∀ (a b : RegNum) (imm : BitVec 7), encode (.lw a b (imm.signExtend 16)) = wordRRI 0b100#3 a b imm) ∧
  ∀ (a b : RegNum) (simm : Word) (s : State),
    (s.reg b + simm = 0 → s.inq = [] →
      exec (.lw a b simm) s = .next { s with blocked := true } ∧
      (s.halt = false → StepResult.ofOutcome (exec (.lw a b simm) s) = .blockedOnInput)) ∧
    (∀ v q, s.reg b + simm = 0 → s.inq = v :: q →
      ∃ t, exec (.lw a b simm) s = .next t ∧ RegWritten s t a v ∧ t.inq = q ∧ t.out = s.out ∧ t.pc = s.pc + 2 ∧
        t.halt = s.halt ∧ t.blocked = false ∧ SameMem s t ∧
        (s.halt = false → StepResult.ofOutcome (exec (.lw a b simm) s) = .continued)) ∧
    ((s.reg b + simm).getLsbD 0 = true →
      exec (.lw a b simm) s = .fault (.unalignedAccess s.pc (s.reg b + simm))) ∧
    (s.reg b + simm ≠ 0 → (s.reg b + simm).getLsbD 0 = false →
      ∃ t v, memRead s.mem (s.reg b + simm) = .ok v ∧ exec (.lw a b simm) s = .next t ∧ RegWritten s t a v ∧
        t.pc = s.pc + 2 ∧ t.halt = s.halt ∧ t.blocked = false ∧ SameMem s t ∧ SamePorts s t ∧
        (s.halt = false → StepResult.ofOutcome (exec (.lw a b simm) s) = .continued))

/-- 43_load_store_io R131: the output port, the unaligned fault and the store. BLOCKED: `BlockedMeansWaitingForInput`. -/
def Obligations.SwWritesPortOrMemory : Prop :=
  (∀ (a b : RegNum) (imm : BitVec 7), encode (.sw a b (imm.signExtend 16)) = wordRRI 0b101#3 a b imm) ∧
  ∀ (a b : RegNum) (simm : Word) (s : State),
    (s.effectiveAddress b simm = s.reg b + simm) ∧
    (s.effectiveAddress b simm = 0 →
      ∃ t, exec (.sw a b simm) s = .next t ∧ t.out = s.out ++ [s.reg a] ∧ t.inq = s.inq ∧ SameRegs s t ∧
        t.pc = s.pc + 2 ∧ t.halt = s.halt ∧ SameMem s t ∧
        (s.halt = false → StepResult.ofOutcome (exec (.sw a b simm) s) = .continued)) ∧
    ((s.effectiveAddress b simm).getLsbD 0 = true →
      exec (.sw a b simm) s = .fault (.unalignedAccess s.pc (s.effectiveAddress b simm)) ∧
      s.afterOutcome (exec (.sw a b simm) s) = s) ∧
    (s.effectiveAddress b simm ≠ 0 → (s.effectiveAddress b simm).getLsbD 0 = false →
      ∃ t, exec (.sw a b simm) s = .next t ∧ MemWritten s t (s.effectiveAddress b simm) (s.reg a) ∧ SameRegs s t ∧
        t.pc = s.pc + 2 ∧ t.halt = s.halt ∧ SamePorts s t ∧
        (s.halt = false → StepResult.ofOutcome (exec (.sw a b simm) s) = .continued))

/-- 44_control R140. BLOCKED: `BlockedMeansWaitingForInput`. -/
def Obligations.BeqBranchesOnEquality : Prop :=
  (∀ (a b : RegNum) (imm : BitVec 7), encode (.beq a b (imm.signExtend 16)) = wordRRI 0b110#3 a b imm) ∧
  ∀ (a b : RegNum) (simm : Word) (s : State),
    ∃ t, exec (.beq a b simm) s = .next t ∧
      t.pc = (if s.reg a = s.reg b then s.pc + 2 + simm else s.pc + 2) ∧ SameRegs s t ∧ t.halt = s.halt ∧
      SameMem s t ∧ SamePorts s t ∧
      (s.halt = false → StepResult.ofOutcome (exec (.beq a b simm) s) = .continued)

/-- 44_control R142, for both rows of opcode `0b111` (log entry 4), with its diagnostic. BLOCKED:
`BlockedMeansWaitingForInput`. -/
def Obligations.JalrHaltsOrDoesNothing : Prop :=
  (∀ (a b : RegNum) (imm : BitVec 7), encodeVariant (.jalr a b (imm.signExtend 16)) = wordRRI 0b111#3 a b imm) ∧
  (∀ (a b : RegNum) (simm : Word) (s : State) (i : Instr), i = .jalr a b simm ∨ i = .hlt a b simm →
    ∃ t, exec i s = .next t ∧ t.halt = (s.halt || simm.getLsbD 0) ∧ t.pc = s.pc + 2 ∧ SameRegs s t ∧ SameMem s t ∧
      SamePorts s t ∧
      (s.halt = false → StepResult.ofOutcome (exec i s) = if simm.getLsbD 0 then .halted else .continued)) ∧
  (∀ (a b : RegNum) (simm : Word) (s : State) (w : Word), s.halt = false → s.fetch = .ok w →
    decodeVariant w = .ok (.jalr a b simm) →
    (Diagnostic.unimplementedFeature s.pc w ∈ stepDiagnostics s ↔ simm.getLsbD 0 = false))

/-- 44_control R143: the word `0xE001`; every word with the halt bit halts in the same way; after it nothing executes. That
a halted machine's step does nothing is the spec's decision D3. -/
def Obligations.HltHaltsForGood : Prop :=
  decode 0xE001#16 = .ok (.hlt 0 0 1) ∧
  ∀ (a b : RegNum) (simm : Word) (s : State), (Instr.hlt a b simm).WellFormed →
    exec (.hlt a b simm) s = exec (.hlt 0 0 1) s ∧
    ∃ t, exec (.hlt a b simm) s = .next t ∧ t.halt = true ∧ t.pc = s.pc + 2 ∧ SameRegs s t ∧ SameMem s t ∧
      SamePorts s t ∧ (∀ n, t.stepTimes n = t) ∧ (∀ n, t.runToHalt (n + 1) = (t, .halted))

/-- 10_state R28 (decision D4): an instruction that gives a next state leaves BLOCKED clear, whatever it was, except an `lw`
at the input port with an empty queue, which sets it. -/
def Obligations.BlockedMeansWaitingForInput : Prop :=
  ∀ (i : Instr) (s t : State), exec i s = .next t →
    (t.blocked = true ↔ ∃ a b simm, i = .lw a b simm ∧ s.reg b + simm = 0 ∧ s.inq = [])

/-! ### The step -/

/-- A step runs the decoded instruction: with HALT clear, an even pc and a word there that decodes to `i`, `step` is `exec i`
(45_engine R150, R151). -/
def Obligations.StepRunsTheDecodedInstruction : Prop :=
  ∀ (s : State) (w : Word) (i : Instr), s.halt = false → s.pc.getLsbD 0 = false →
    Memory.get s.mem (s.pc.toNat / 2) = w → decode w = .ok i → step s = exec i s

/-- 45_engine R153 (decision D3): a halted machine does nothing and answers `Halted`. -/
def Obligations.HaltedMachineStaysPut : Prop :=
  ∀ s : State, s.halt = true →
    s.stepCommand = (s, .halted) ∧ stepDiagnostics s = [] ∧ (∀ n, s.stepTimes n = s) ∧
    ∀ n, s.runToHalt (n + 1) = (s, .halted)

/-- 45_engine R151 (decision D5): an odd pc faults at the fetch, for ever, and nothing changes. -/
def Obligations.OddPcFaultsForEver : Prop :=
  ∀ s : State, s.halt = false → s.pc.getLsbD 0 = true →
    ∀ n, (s.stepTimes n).stepCommand = (s, .fault (.unalignedAccess s.pc s.pc))

/-- 45_engine R152: a malformed word at the pc faults, and faults again at every further step. -/
def Obligations.MalformedWordFaultsForEver : Prop :=
  ∀ (s : State) (w : Word) (r : Raised), s.halt = false → s.fetch = .ok w → decode w = .error r →
    ∀ n, (s.stepTimes n).stepCommand = (s, .fault (.malformedInstruction s.pc w))

/-- 60_exceptions R205 (decision D6): a fault is precise, reports the pc of the step, changes nothing, is not latched, and
ends a run. -/
def Obligations.FaultsArePrecise : Prop :=
  ∀ (s : State) (f : Fault), step s = .fault f →
    f.pc = s.pc ∧ f.kind.fatal = true ∧ s.perform .step = (s, .stepped (.fault f) (stepDiagnostics s)) ∧
    (∀ n, (s.stepTimes n).stepCommand = (s, .fault f)) ∧ ∀ n, s.runToHalt (n + 1) = (s, .fault f)

/-- 60_exceptions R201: all the causes of `UnalignedAccess`, with the address; cause (a) is decision D5. -/
def Obligations.UnalignedAccessCauses : Prop :=
  ∀ (s : State) (p addr : Word), step s = .fault (.unalignedAccess p addr) ↔
    p = s.pc ∧ s.halt = false ∧
      ((s.pc.getLsbD 0 = true ∧ addr = s.pc) ∨
       (∃ w a b simm, s.fetch = .ok w ∧ (decode w = .ok (.lw a b simm) ∨ decode w = .ok (.sw a b simm)) ∧
          addr = s.reg b + simm ∧ addr.getLsbD 0 = true))

/-- 60_exceptions R202: the only cause of `MalformedInstruction`. -/
def Obligations.MalformedInstructionCause : Prop :=
  ∀ (s : State) (p w : Word), step s = .fault (.malformedInstruction p w) ↔
    p = s.pc ∧ s.halt = false ∧ s.fetch = .ok w ∧
      (w.extractLsb' 13 3 = 0b000#3 ∨ w.extractLsb' 13 3 = 0b010#3) ∧ w.extractLsb' 3 4 ≠ 0#4

/-- 45_engine R156: every row of the table of results, with the state change it implies; no step is refused. That BLOCKED is
cleared and that a halted step does nothing are decisions D4 and D3. -/
def Obligations.StepResultTable : Prop :=
  ∀ s : State,
    (s.stepCommand.2 = .continued →
      ∃ i t, s.nextInstr = some i ∧ exec i s = .next t ∧ s.stepCommand.1 = t ∧ t.halt = false ∧ t.blocked = false ∧
        ∀ a b simm, i ≠ .hlt a b simm) ∧
    (s.stepCommand.2 = .halted →
      (s.halt = true ∧ s.stepCommand.1 = s) ∨
      ((∃ a b simm, s.nextInstr = some (.hlt a b simm)) ∧
        s.stepCommand.1 = { s with halt := true, pc := s.pc + 2, blocked := false })) ∧
    (s.stepCommand.2 = .blockedOnInput →
      (∃ a b simm, s.nextInstr = some (.lw a b simm) ∧ s.reg b + simm = 0) ∧ s.inq = [] ∧
        s.stepCommand.1 = { s with blocked := true }) ∧
    (∀ f, s.stepCommand.2 = .fault f → s.stepCommand.1 = s ∧ step s = .fault f) ∧
    (∀ r, s.stepCommand.2 ≠ .refused r) ∧
    (stepDiagnostics s).length ≤ 2

/-- 10_state R27: HALT is set by a step that executes a halting `jalr` and by nothing else, and cleared by `loadProgram` and
by nothing else, among all the host's commands. -/
def Obligations.HaltFlagWriters : Prop :=
  ∀ (s : State) (c : HostCommand),
    ((s.perform c).1.halt = true → s.halt = false → c.executes = true) ∧
    (s.halt = false → s.stepCommand.1.halt = true → ∃ a b simm, s.nextInstr = some (.hlt a b simm)) ∧
    ((s.perform c).1.halt = false → s.halt = true → c.isLoad = true)

/-- 10_state R35 (d), R33 (the log outlives `loadProgram` by decision D9): between resets the output log only grows at its
end. -/
def Obligations.OutputLogOnlyGrows : Prop :=
  ∀ (s : State) (cs : List HostCommand), s.out <+: (s.performAll cs).out

/-- 20_memory R46, 43_load_store_io R131: no program can overwrite word 0; only `loadProgram` writes it. -/
def Obligations.WordZeroOnlyWrittenByLoad : Prop :=
  ∀ (s : State) (cs : List HostCommand), (∀ c ∈ cs, c.isLoad = false) →
    memRead (s.performAll cs).mem 0 = memRead s.mem 0

/-- 10_state R26 (decision D5): a completed step from an even pc leaves the pc odd exactly when it was a taken `beq` with an
odd offset. -/
def Obligations.PcParityAfterStep : Prop :=
  ∀ (s t : State), s.pc.getLsbD 0 = false → step s = .next t →
    (t.pc.getLsbD 0 = true ↔
      ∃ a b simm, s.nextInstr = some (.beq a b simm) ∧ s.reg a = s.reg b ∧ simm.getLsbD 0 = true)

/-- 20_memory R56: the word an `sw` stores is the word fetched at its address by whatever step comes there next, and every
other address fetches as before. -/
def Obligations.StoreIsSeenByFetch : Prop :=
  ∀ (a b : RegNum) (simm : Word) (s t u : State), exec (.sw a b simm) s = .next t →
    s.effectiveAddress b simm ≠ 0 → u.mem = t.mem →
    u.fetch = if u.pc = s.effectiveAddress b simm then .ok (s.reg a) else memRead s.mem u.pc

/-- 43_load_store_io R133: the blocked `lw` repeats exactly, any number of times, and completes once the host has pushed a
value. (That the flag is not read by the step is `BlockedFlagIsNotRead`.) -/
def Obligations.BlockedLoadRetries : Prop :=
  ∀ (s : State) (a b : RegNum) (simm : Word), s.nextInstr = some (.lw a b simm) → s.reg b + simm = 0 → s.inq = [] →
    s.stepCommand = ({ s with blocked := true }, .blockedOnInput) ∧
    (∀ n, (s.stepTimes n).stepCommand = ({ s with blocked := true }, .blockedOnInput)) ∧
    (∀ n, s.runToHalt (n + 1) = ({ s with blocked := true }, .blockedOnInput)) ∧
    ∀ v, ∃ u t, s.stepCommand.1.pushInput v = .ok u ∧ u.stepCommand = (t, .continued) ∧ RegWritten s t a v ∧
      t.inq = [] ∧ t.out = s.out ∧ t.pc = s.pc + 2 ∧ t.blocked = false ∧ t.halt = false ∧ SameMem s t

/-- 20_memory R47, 10_state R32: the queue is first in, first out, through the commands and the steps. From a state whose
next instruction reads the input port, the value read is the one pushed first. -/
def Obligations.InputQueueIsFifo : Prop :=
  ∀ (s : State) (vs : List Word) (v : Word) (a b : RegNum) (simm : Word),
    s.inq = [] → (v :: vs).length ≤ 10 → s.nextInstr = some (.lw a b simm) → s.reg b + simm = 0 →
    ∃ u, s.performAll ((v :: vs).map .pushInput) = u ∧ u.drainAvailableInputs = v :: vs ∧
      u.stepCommand.2 = .continued ∧ RegWritten s u.stepCommand.1 a v ∧ u.stepCommand.1.inq = vs

/-- 10_state R28 ("No instruction reads it"), 43_load_store_io R133: BLOCKED never influences a step of a machine that is not
halted. -/
def Obligations.BlockedFlagIsNotRead : Prop :=
  ∀ (s : State) (b : Bool), s.halt = false →
    step { s with blocked := b } = step s ∧ stepDiagnostics { s with blocked := b } = stepDiagnostics s

/-- 10_state R33, 20_memory R51: the output log never influences a step; a step from the same state with another log does the
same and appends the same. -/
def Obligations.OutputLogIsNotRead : Prop :=
  ∀ (s t : State) (o : List Word), step s = .next t →
    ∃ d, t.out = s.out ++ d ∧ step { s with out := o } = .next { t with out := o ++ d }

/-- 60_exceptions R207, R208 (the name `JalrNonZeroImmediate` and that diagnostics are outputs beside a step are decisions of
the spec, D14): the diagnostics of every step that fetches a word. -/
def Obligations.StepDiagnosticsByWord : Prop :=
  ∀ (s : State) (w : Word), s.halt = false → s.fetch = .ok w →
    stepDiagnostics s =
      if w.extractLsb' 13 3 = 0b111#3 then
        (if w.extractLsb' 0 7 = 0#7 then [] else [.jalrNonZeroImmediate w]) ++
        (if w.getLsbD 0 then [] else [.unimplementedFeature s.pc w])
      else []

/-- The word placed by `withFetchWord` is the word the next step runs, and nothing but HALT, the pc's bit 0 and that word
differs (log entry 3). -/
def Obligations.PlacedWordIsRun : Prop :=
  ∀ (s : State) (w : Word) (i : Instr), decode w = .ok i →
    step (s.withFetchWord 16 w.toNat) = exec i (s.withFetchWord 16 w.toNat) ∧
    SameRegs s (s.withFetchWord 16 w.toNat) ∧ SamePorts s (s.withFetchWord 16 w.toNat) ∧
    (s.pc.getLsbD 0 = false → (s.withFetchWord 16 w.toNat).pc = s.pc ∧ MemWritten s (s.withFetchWord 16 w.toNat) s.pc w)

/-! ### The host's commands -/

/-- 45_engine R157 (decision D7): the budget. A run of no step is `Continued`; a run of `n + m` steps is a run of `n`, and of
`m` more if the first answers `Continued`; any other result is the last step's. -/
def Obligations.RunBudgetsAdd : Prop :=
  ∀ (s : State) (n m : Nat),
    s.runToHalt 0 = (s, .continued) ∧
    s.runToHalt (n + m) =
      (if (s.runToHalt n).2 = .continued then (s.runToHalt n).1.runToHalt m else s.runToHalt n) ∧
    ((s.runToHalt n).2 = .continued → (s.runToHalt n).1 = s.stepTimes n) ∧
    (∀ r, r ≠ .continued → (s.runToHalt n).2 = r →
      ∃ k, k < n ∧ (s.runToHalt k).2 = .continued ∧ (s.stepTimes k).stepCommand = s.runToHalt n)

/-- 45_engine R162. -/
def Obligations.PushInputAppendsOrFails : Prop :=
  ∀ (s : State) (v : Word),
    (s.inq.length = 10 → s.perform (.pushInput v) = (s, .failed .inputQueueFull)) ∧
    (s.inq.length < 10 → s.perform (.pushInput v) = ({ s with inq := s.inq ++ [v] }, .done))

/-- 45_engine R163, R164, R166. -/
def Obligations.ObservationsChangeNothing : Prop :=
  ∀ s : State,
    s.perform .drainAvailableInputs = (s, .words s.inq) ∧ s.perform .outputs = (s, .words s.out) ∧
    s.perform .registers = (s, .words [0, s.reg 1, s.reg 2, s.reg 3, s.reg 4, s.reg 5, s.reg 6, s.reg 7]) ∧
    s.perform .programCounter = (s, .word s.pc)

/-- 70_reset_and_hazards R232; what it leaves alone is decision D9, the refusal decision D10. -/
def Obligations.LoadProgramRestarts : Prop :=
  ∀ (s : State) (ws : List Word),
    (ws.length ≤ 32768 → ∃ t, s.perform (.loadProgram ws) = (t, .done) ∧ (∀ r, t.reg r = 0) ∧ t.pc = 0 ∧
      t.halt = false ∧ t.blocked = false ∧ SamePorts s t ∧
      ∀ addr, isOdd addr = false → memRead t.mem addr =
        if h : addr.toNat / 2 < ws.length then .ok ws[addr.toNat / 2] else memRead s.mem addr) ∧
    (32768 < ws.length → s.perform (.loadProgram ws) = (s, .failed .imageTooLong))

/-- 10_state R37: besides `loadProgram` and the commands that execute, no command changes registers, memory, pc or flags, and
of those only `pushInput` changes the queue. -/
def Obligations.OtherCommandsLeaveTheCoreAlone : Prop :=
  ∀ (s : State) (c : HostCommand), c.isLoad = false → c.executes = false →
    (s.perform c).1 = { s with inq := (s.perform c).1.inq } ∧
    ((∀ v, c ≠ .pushInput v) → (s.perform c).1 = s)

/-- 45_engine R168 (decision D16 for its failures): the text of the word in memory, at address 0 too; no state changes. -/
def Obligations.DisassembleAtReadsMemory : Prop :=
  ∀ (s : State) (addr : Word),
    (s.perform (.disassembleAt addr)).1 = s ∧
    (addr.getLsbD 0 = true → s.disassembleAt addr = .error (.notDisassembled (.unalignedAccess addr))) ∧
    (∀ i, addr.getLsbD 0 = false → decode (Memory.get s.mem (addr.toNat / 2)) = .ok i →
      s.disassembleAt addr = .ok (disassemble i.variant)) ∧
    (∀ r, addr.getLsbD 0 = false → decode (Memory.get s.mem (addr.toNat / 2)) = .error r →
      s.disassembleAt addr = .error (.notDisassembled r))

/-- 46_disassembler R181, R182 (the texts are decision D15): the table, with Lean's own decimal numerals, for every operand a
word can hold. -/
def Obligations.DisassemblerTexts : Prop :=
  ∀ (a b c : RegNum) (imm7 : BitVec 7) (imm10 : BitVec 10),
    let ra := "R" ++ toString a.toNat
    let rb := "R" ++ toString b.toNat
    let rc := "R" ++ toString c.toNat
    let simm := imm7.signExtend 16
    let n := toString imm7.toInt
    disassemble (.add a b c) = "add " ++ ra ++ ", " ++ rb ++ ", " ++ rc ∧
    disassemble (.nand a b c) = "nand " ++ ra ++ ", " ++ rb ++ ", " ++ rc ∧
    disassemble (.lui a (imm10.setWidth 16)) = "lui " ++ ra ++ ", " ++ toString imm10.toNat ∧
    disassemble (.addi a b simm) = "addi " ++ ra ++ ", " ++ rb ++ ", " ++ n ∧
    disassemble (.lw a b simm) = "lw " ++ ra ++ ", " ++ rb ++ ", " ++ n ∧
    disassemble (.sw a b simm) = "sw " ++ ra ++ ", " ++ rb ++ ", " ++ n ∧
    disassemble (.beq a b simm) = "beq " ++ ra ++ ", " ++ rb ++ ", " ++ n ∧
    disassemble (.jalr a b simm) =
      (if imm7 = 0 then "jalr " ++ ra ++ ", " ++ rb
       else if a = 0 ∧ b = 0 ∧ imm7 = 1 then "hlt"
       else "jalr " ++ ra ++ ", " ++ rb ++ ", " ++ n)

/-- 46_disassembler R183 (marked derived there, and resting on decision D15): the text determines the instruction word. -/
def Obligations.DisassemblyIsInjective : Prop :=
  ∀ (w w' : Word) (v v' : Variant), decodeVariant w = .ok v → decodeVariant w' = .ok v' →
    disassemble v = disassemble v' → w = w'
end

