-- ==== Sys2Proof/Laws/Memory.lean ====
section
/-! SUPPORT. The laws of memory: what a read gives after a write, and that every operation keeps the canonical form. -/

namespace Sys2Proof.Machine

/-! ### Reads -/

@[simp] theorem Memory.get_nil (i : Nat) : Memory.get [] i = unlistedWord := rfl

theorem Memory.get_of_forall_ne {m : Memory} {i : Nat} (h : ∀ p ∈ m, p.1 ≠ i) : Memory.get m i = unlistedWord := by
  induction m with
  | nil => rfl
  | cons p m ih =>
    obtain ⟨j, u⟩ := p
    have hj : j ≠ i := h (j, u) (by simp)
    simp only [Memory.get, Ne.symm hj, if_false]
    exact ih fun p hp => h p (by simp [hp])

theorem Memory.get_of_mem {m : Memory} (hs : m.Pairwise (fun p q => p.1 < q.1)) {p : Nat × Word} (hp : p ∈ m) :
    Memory.get m p.1 = p.2 := by
  induction m with
  | nil => simp at hp
  | cons q m ih =>
    obtain ⟨j, u⟩ := q
    rw [List.pairwise_cons] at hs
    rcases List.mem_cons.1 hp with rfl | hp
    · simp [Memory.get]
    · have : j < p.1 := hs.1 p hp
      simp [Memory.get, (Nat.ne_of_lt this).symm, ih hs.2 hp]

theorem Memory.get_erase (m : Memory) (i k : Nat) :
    Memory.get (Memory.erase m i) k = if k = i then unlistedWord else Memory.get m k := by
  induction m with
  | nil => simp [Memory.erase]
  | cons p m ih =>
    obtain ⟨j, u⟩ := p
    simp only [Memory.erase] at ih ⊢
    by_cases hji : j = i
    · subst hji
      simp only [ne_eq, not_true_eq_false, decide_false, Bool.false_eq_true, not_false_eq_true,
        List.filter_cons_of_neg, ih, Memory.get]
      split <;> simp_all
    · simp only [ne_eq, hji, not_false_eq_true, decide_true, List.filter_cons_of_pos, Memory.get, ih]
      by_cases hk : k = j
      · subst hk; simp [hji]
      · simp [hk]

theorem Memory.get_insertEntry (m : Memory) (i k : Nat) (v : Word) (h : ∀ p ∈ m, p.1 ≠ i) :
    Memory.get (Memory.insertEntry m i v) k = if k = i then v else Memory.get m k := by
  induction m with
  | nil => simp [Memory.insertEntry, Memory.get]
  | cons p m ih =>
    obtain ⟨j, u⟩ := p
    have hj : j ≠ i := h (j, u) (by simp)
    have ih := ih fun p hp => h p (by simp [hp])
    simp only [Memory.insertEntry]
    split
    · simp only [Memory.get]
    · simp only [Memory.get, ih]
      by_cases hk : k = j
      · subst hk; simp [hj]
      · simp [hk]

theorem Memory.erase_ne (m : Memory) (i : Nat) : ∀ p ∈ Memory.erase m i, p.1 ≠ i := by
  intro p hp
  simpa [Memory.erase] using (List.mem_filter.1 hp).2

/-- All a memory write can do to a read (20_memory R44). -/
theorem Memory.get_set (m : Memory) (i k : Nat) (v : Word) :
    Memory.get (Memory.set m i v) k = if k = i then v else Memory.get m k := by
  unfold Memory.set
  split
  · next h => subst h; exact Memory.get_erase m i k
  · rw [Memory.get_insertEntry _ _ _ _ (Memory.erase_ne m i), Memory.get_erase]
    split <;> simp_all

/-- What a read gives after words have been installed (70_reset_and_hazards R230, R232). -/
theorem Memory.get_install (m : Memory) (i : Nat) (ws : List Word) (k : Nat) :
    Memory.get (Memory.install m i ws) k =
      if i ≤ k ∧ k < i + ws.length then ws.getD (k - i) unlistedWord else Memory.get m k := by
  induction ws generalizing m i with
  | nil => simp only [Memory.install, List.length_nil]; rw [if_neg (by omega)]
  | cons w ws ih =>
    simp only [Memory.install, ih, Memory.get_set, List.length_cons]
    by_cases hk : k = i
    · subst hk; simp
    · by_cases h : i + 1 ≤ k ∧ k < i + 1 + ws.length
      · have h' : i ≤ k ∧ k < i + (ws.length + 1) := by omega
        obtain ⟨d, hd⟩ : ∃ d, k - i = d + 1 := ⟨k - i - 1, by omega⟩
        have hd' : k - (i + 1) = d := by omega
        simp [h, h', hd, hd']
      · have h' : ¬ (i ≤ k ∧ k < i + (ws.length + 1)) := by omega
        rw [if_neg h, if_neg h', if_neg hk]

theorem Memory.entriesOf_sorted (n : Nat) (f : Nat → Word) :
    (Memory.entriesOf n f).Pairwise (fun p q => p.1 < q.1) := by
  unfold Memory.entriesOf
  apply List.Pairwise.filter
  rw [List.pairwise_map]
  exact List.pairwise_lt_range

theorem Memory.mem_entriesOf (n : Nat) (f : Nat → Word) (p : Nat × Word) :
    p ∈ Memory.entriesOf n f ↔ p.1 < n ∧ p.2 = f p.1 ∧ p.2 ≠ unlistedWord := by
  obtain ⟨i, v⟩ := p
  simp only [Memory.entriesOf, List.mem_filter, List.mem_map, List.mem_range, Prod.mk.injEq, ne_eq, decide_not,
    Bool.not_eq_eq_eq_not, Bool.not_true, decide_eq_false_iff_not]
  constructor
  · rintro ⟨⟨j, hj, rfl, rfl⟩, h⟩; exact ⟨hj, rfl, h⟩
  · rintro ⟨h, rfl, h'⟩; exact ⟨⟨i, h, rfl, rfl⟩, h'⟩

theorem Memory.get_entriesOf (n : Nat) (f : Nat → Word) (i : Nat) (h : i < n) :
    Memory.get (Memory.entriesOf n f) i = f i := by
  by_cases hf : f i = unlistedWord
  · rw [Memory.get_of_forall_ne, hf]
    rintro p hp rfl
    obtain ⟨-, h1, h2⟩ := (Memory.mem_entriesOf n f p).1 hp
    exact h2 (h1.trans hf)
  · exact Memory.get_of_mem (Memory.entriesOf_sorted n f) ((Memory.mem_entriesOf n f (i, f i)).2 ⟨h, rfl, hf⟩)

/-- A memory given by a function holds that function's words. -/
theorem Memory.get_ofFn (f : Nat → Word) (i : Nat) (h : i < memWords) : Memory.get (Memory.ofFn f) i = f i :=
  Memory.get_entriesOf memWords f i h

/-! ### The canonical form -/

theorem Memory.wf_nil : Memory.wf [] := by simp [Memory.wf]

theorem Memory.wf_erase {m : Memory} (h : Memory.wf m) (i : Nat) : Memory.wf (Memory.erase m i) :=
  ⟨h.1.filter _, fun p hp => h.2 p (List.mem_filter.1 hp).1⟩

theorem Memory.mem_insertEntry {m : Memory} {i : Nat} {v : Word} {p : Nat × Word}
    (hp : p ∈ Memory.insertEntry m i v) : p = (i, v) ∨ p ∈ m := by
  induction m with
  | nil => simpa [Memory.insertEntry] using hp
  | cons q m ih =>
    simp only [Memory.insertEntry] at hp
    split at hp
    · simpa using hp
    · rcases List.mem_cons.1 hp with rfl | hp
      · simp
      · rcases ih hp with h | h <;> simp [h]

theorem Memory.insertEntry_sorted {m : Memory} (hs : m.Pairwise (fun p q => p.1 < q.1)) {i : Nat} (v : Word)
    (h : ∀ p ∈ m, p.1 ≠ i) : (Memory.insertEntry m i v).Pairwise (fun p q => p.1 < q.1) := by
  induction m with
  | nil => simp [Memory.insertEntry]
  | cons q m ih =>
    obtain ⟨j, u⟩ := q
    have hj : j ≠ i := h (j, u) (by simp)
    rw [List.pairwise_cons] at hs
    simp only [Memory.insertEntry]
    split
    · next hij =>
      refine List.pairwise_cons.2 ⟨fun p hp => ?_, List.pairwise_cons.2 hs⟩
      rcases List.mem_cons.1 hp with rfl | hp
      · exact hij
      · exact Nat.lt_trans hij (hs.1 p hp)
    · refine List.pairwise_cons.2 ⟨fun p hp => ?_, ih hs.2 fun p hp => h p (by simp [hp])⟩
      rcases Memory.mem_insertEntry hp with rfl | hp
      · show j < i; omega
      · exact hs.1 p hp

/-- Writing a word keeps the canonical form. -/
theorem Memory.wf_set {m : Memory} (h : Memory.wf m) {i : Nat} (hi : i < memWords) (v : Word) :
    Memory.wf (Memory.set m i v) := by
  unfold Memory.set
  split
  · exact Memory.wf_erase h i
  · next hv =>
    refine ⟨Memory.insertEntry_sorted (Memory.wf_erase h i).1 v (Memory.erase_ne m i), fun p hp => ?_⟩
    rcases Memory.mem_insertEntry hp with rfl | hp
    · exact ⟨hi, hv⟩
    · exact (Memory.wf_erase h i).2 p hp

/-- Installing words keeps the canonical form. -/
theorem Memory.wf_install {m : Memory} (h : Memory.wf m) {i : Nat} (ws : List Word) (hi : i + ws.length ≤ memWords) :
    Memory.wf (Memory.install m i ws) := by
  induction ws generalizing m i with
  | nil => exact h
  | cons w ws ih =>
    simp only [List.length_cons] at hi
    exact ih (Memory.wf_set h (by omega) w) (by omega)

theorem Memory.wf_entriesOf (n : Nat) (f : Nat → Word) (hn : n ≤ memWords) : Memory.wf (Memory.entriesOf n f) :=
  ⟨Memory.entriesOf_sorted n f, fun p hp =>
    have h := (Memory.mem_entriesOf n f p).1 hp
    ⟨Nat.lt_of_lt_of_le h.1 hn, h.2.2⟩⟩

/-- A memory given by a function is canonical. -/
theorem Memory.wf_ofFn (f : Nat → Word) : Memory.wf (Memory.ofFn f) := Memory.wf_entriesOf memWords f (Nat.le_refl _)

/-! ### Addresses -/

/-- The word index of an address is below 32768, and "the `mod` changes nothing" (20_memory R40). -/
theorem wordIndex_eq (addr : Word) : wordIndex addr = addr.toNat / 2 := by
  have := addr.isLt
  simp only [wordIndex, memWords, BitVec.toNat_ushiftRight, Nat.shiftRight_one]
  omega

theorem wordIndex_lt (addr : Word) : wordIndex addr < memWords := Nat.mod_lt _ (by decide)

theorem isOdd_iff (addr : Word) : isOdd addr = true ↔ addr.toNat % 2 = 1 := by
  simp [isOdd, BitVec.getLsbD, Nat.testBit_zero]

/-- Two even addresses name the same word only if they are the same (20_memory R40). -/
theorem wordIndex_inj {a b : Word} (ha : isOdd a = false) (hb : isOdd b = false) :
    wordIndex a = wordIndex b ↔ a = b := by
  have ha' : ¬ a.toNat % 2 = 1 := by rw [← isOdd_iff]; simp [ha]
  have hb' : ¬ b.toNat % 2 = 1 := by rw [← isOdd_iff]; simp [hb]
  rw [wordIndex_eq, wordIndex_eq, ← BitVec.toNat_inj]
  omega

/-- A word read at an odd address (20_memory R42, R43). -/
theorem memRead_odd {addr : Word} (h : isOdd addr = true) (m : Memory) :
    memRead m addr = .error (.unalignedAccess addr) := if_pos h

/-- A word read at an even address (20_memory R43). -/
theorem memRead_even {addr : Word} (h : isOdd addr = false) (m : Memory) :
    memRead m addr = .ok (Memory.get m (wordIndex addr)) := if_neg (by rw [h]; decide)

/-- A word write at an odd address (20_memory R42, R44). -/
theorem memWrite_odd {addr : Word} (h : isOdd addr = true) (m : Memory) (v : Word) :
    memWrite m addr v = .error (.unalignedAccess addr) := if_pos h

/-- A word write at an even address (20_memory R44). -/
theorem memWrite_even {addr : Word} (h : isOdd addr = false) (m : Memory) (v : Word) :
    memWrite m addr v = .ok (Memory.set m (wordIndex addr) v) := if_neg (by rw [h]; decide)

/-- All a word read can do (20_memory R43). -/
theorem memRead_ok_iff (m : Memory) (addr v : Word) :
    memRead m addr = .ok v ↔ isOdd addr = false ∧ v = Memory.get m (wordIndex addr) := by
  cases h : isOdd addr with
  | true => simp [memRead_odd h]
  | false => rw [memRead_even h]; simp only [Except.ok.injEq, true_and]; exact eq_comm

theorem memRead_error_iff (m : Memory) (addr : Word) (r : Raised) :
    memRead m addr = .error r ↔ isOdd addr = true ∧ r = .unalignedAccess addr := by
  cases h : isOdd addr with
  | true => rw [memRead_odd h]; simp only [Except.error.injEq, true_and]; exact eq_comm
  | false => simp [memRead_even h]

/-- All a word write can do (20_memory R44). -/
theorem memWrite_ok_iff (m m' : Memory) (addr v : Word) :
    memWrite m addr v = .ok m' ↔ isOdd addr = false ∧ m' = Memory.set m (wordIndex addr) v := by
  cases h : isOdd addr with
  | true => simp [memWrite_odd h]
  | false => rw [memWrite_even h]; simp only [Except.ok.injEq, true_and]; exact eq_comm

theorem memWrite_error_iff (m : Memory) (addr v : Word) (r : Raised) :
    memWrite m addr v = .error r ↔ isOdd addr = true ∧ r = .unalignedAccess addr := by
  cases h : isOdd addr with
  | true => rw [memWrite_odd h]; simp only [Except.error.injEq, true_and]; exact eq_comm
  | false => simp [memWrite_even h]

/-- A word write keeps the canonical form. -/
theorem memWrite_wf {m m' : Memory} {addr v : Word} (h : Memory.wf m) (hw : memWrite m addr v = .ok m') :
    Memory.wf m' := by
  obtain ⟨-, rfl⟩ := (memWrite_ok_iff m m' addr v).1 hw
  exact Memory.wf_set h (wordIndex_lt addr) v

/-- A word read after the word at an even address has been replaced. -/
theorem memRead_set (m : Memory) (a b v : Word) (ha : isOdd a = false) :
    memRead (Memory.set m (wordIndex a) v) b = if b = a then .ok v else memRead m b := by
  cases hb : isOdd b with
  | true =>
    have : b ≠ a := by rintro rfl; simp_all
    rw [memRead_odd hb, memRead_odd hb, if_neg this]
  | false =>
    rw [memRead_even hb, memRead_even hb, Memory.get_set]
    simp only [wordIndex_inj hb ha]
    split <;> rfl

end Sys2Proof.Machine
end

