-- ==== Sys2Proof/Laws/State.lean ====
section
/-! SUPPORT. One lemma per field per state update, and the register laws. -/

namespace Sys2Proof.Machine

@[simp] theorem State.setReg_x (s : State) (r : RegNum) (v : Word) : (s.setReg r v).x = s.x.write r v := rfl
@[simp] theorem State.setReg_pc (s : State) (r : RegNum) (v : Word) : (s.setReg r v).pc = s.pc := rfl
@[simp] theorem State.setReg_halt (s : State) (r : RegNum) (v : Word) : (s.setReg r v).halt = s.halt := rfl
@[simp] theorem State.setReg_blocked (s : State) (r : RegNum) (v : Word) : (s.setReg r v).blocked = s.blocked := rfl
@[simp] theorem State.setReg_mem (s : State) (r : RegNum) (v : Word) : (s.setReg r v).mem = s.mem := rfl
@[simp] theorem State.setReg_inq (s : State) (r : RegNum) (v : Word) : (s.setReg r v).inq = s.inq := rfl
@[simp] theorem State.setReg_out (s : State) (r : RegNum) (v : Word) : (s.setReg r v).out = s.out := rfl

@[simp] theorem State.complete_x (s : State) (p : Word) : (s.complete p).x = s.x := rfl
@[simp] theorem State.complete_pc (s : State) (p : Word) : (s.complete p).pc = p := rfl
@[simp] theorem State.complete_halt (s : State) (p : Word) : (s.complete p).halt = s.halt := rfl
@[simp] theorem State.complete_blocked (s : State) (p : Word) : (s.complete p).blocked = false := rfl
@[simp] theorem State.complete_mem (s : State) (p : Word) : (s.complete p).mem = s.mem := rfl
@[simp] theorem State.complete_inq (s : State) (p : Word) : (s.complete p).inq = s.inq := rfl
@[simp] theorem State.complete_out (s : State) (p : Word) : (s.complete p).out = s.out := rfl

@[simp] theorem State.setHalt_x (s : State) : (s.setHalt).x = s.x := rfl
@[simp] theorem State.setHalt_pc (s : State) : (s.setHalt).pc = s.pc := rfl
@[simp] theorem State.setHalt_halt (s : State) : (s.setHalt).halt = true := rfl
@[simp] theorem State.setHalt_blocked (s : State) : (s.setHalt).blocked = s.blocked := rfl
@[simp] theorem State.setHalt_mem (s : State) : (s.setHalt).mem = s.mem := rfl
@[simp] theorem State.setHalt_inq (s : State) : (s.setHalt).inq = s.inq := rfl
@[simp] theorem State.setHalt_out (s : State) : (s.setHalt).out = s.out := rfl

@[simp] theorem State.setBlocked_x (s : State) : (s.setBlocked).x = s.x := rfl
@[simp] theorem State.setBlocked_pc (s : State) : (s.setBlocked).pc = s.pc := rfl
@[simp] theorem State.setBlocked_halt (s : State) : (s.setBlocked).halt = s.halt := rfl
@[simp] theorem State.setBlocked_blocked (s : State) : (s.setBlocked).blocked = true := rfl
@[simp] theorem State.setBlocked_mem (s : State) : (s.setBlocked).mem = s.mem := rfl
@[simp] theorem State.setBlocked_inq (s : State) : (s.setBlocked).inq = s.inq := rfl
@[simp] theorem State.setBlocked_out (s : State) : (s.setBlocked).out = s.out := rfl

@[simp] theorem State.outPush_x (s : State) (v : Word) : (s.outPush v).x = s.x := rfl
@[simp] theorem State.outPush_pc (s : State) (v : Word) : (s.outPush v).pc = s.pc := rfl
@[simp] theorem State.outPush_halt (s : State) (v : Word) : (s.outPush v).halt = s.halt := rfl
@[simp] theorem State.outPush_blocked (s : State) (v : Word) : (s.outPush v).blocked = s.blocked := rfl
@[simp] theorem State.outPush_mem (s : State) (v : Word) : (s.outPush v).mem = s.mem := rfl
@[simp] theorem State.outPush_inq (s : State) (v : Word) : (s.outPush v).inq = s.inq := rfl
@[simp] theorem State.outPush_out (s : State) (v : Word) : (s.outPush v).out = s.out ++ [v] := rfl

@[simp] theorem State.placeFetchWord_x (s : State) (w : Word) : (s.placeFetchWord w).x = s.x := rfl
@[simp] theorem State.placeFetchWord_pc (s : State) (w : Word) : (s.placeFetchWord w).pc = s.pc &&& 0xFFFE#16 := rfl
@[simp] theorem State.placeFetchWord_halt (s : State) (w : Word) : (s.placeFetchWord w).halt = false := rfl
@[simp] theorem State.placeFetchWord_blocked (s : State) (w : Word) : (s.placeFetchWord w).blocked = s.blocked := rfl
@[simp] theorem State.placeFetchWord_mem (s : State) (w : Word) :
    (s.placeFetchWord w).mem = Memory.set s.mem (wordIndex (s.pc &&& 0xFFFE#16)) w := rfl
@[simp] theorem State.placeFetchWord_inq (s : State) (w : Word) : (s.placeFetchWord w).inq = s.inq := rfl
@[simp] theorem State.placeFetchWord_out (s : State) (w : Word) : (s.placeFetchWord w).out = s.out := rfl

@[simp] theorem State.reset_x : State.reset.x = RegFile.zero := rfl
@[simp] theorem State.reset_pc : State.reset.pc = 0 := rfl
@[simp] theorem State.reset_halt : State.reset.halt = false := rfl
@[simp] theorem State.reset_blocked : State.reset.blocked = false := rfl
@[simp] theorem State.reset_mem : State.reset.mem = [] := rfl
@[simp] theorem State.reset_inq : State.reset.inq = [] := rfl
@[simp] theorem State.reset_out : State.reset.out = [] := rfl

/-! ### Register reads -/

@[simp] theorem RegFile.read_zero (x : RegFile) : x.read 0 = 0 := rfl

@[simp] theorem RegFile.write_zero (x : RegFile) (v : Word) : x.write 0 v = x := rfl

/-- Every register number is one of the eight. -/
theorem regNum_cases (r : RegNum) : r = 0 ∨ r = 1 ∨ r = 2 ∨ r = 3 ∨ r = 4 ∨ r = 5 ∨ r = 6 ∨ r = 7 := by
  revert r; decide

/-- All a register write can do (10_state R22). -/
theorem RegFile.read_write (x : RegFile) (a r : RegNum) (v : Word) :
    (x.write a v).read r = if r = a ∧ a ≠ 0 then v else x.read r := by
  obtain rfl | rfl | rfl | rfl | rfl | rfl | rfl | rfl := regNum_cases a <;>
    obtain rfl | rfl | rfl | rfl | rfl | rfl | rfl | rfl := regNum_cases r <;> rfl

@[simp] theorem RegFile.zero_read (r : RegNum) : RegFile.zero.read r = 0 := by
  obtain rfl | rfl | rfl | rfl | rfl | rfl | rfl | rfl := regNum_cases r <;> rfl

/-- The register file is determined by its reads. -/
theorem RegFile.ext_read (x y : RegFile) (h : ∀ r, x.read r = y.read r) : x = y := by
  cases x; cases y
  have h1 := h 1; have h2 := h 2; have h3 := h 3; have h4 := h 4
  have h5 := h 5; have h6 := h 6; have h7 := h 7
  simp only [RegFile.mk.injEq]
  exact ⟨h1, h2, h3, h4, h5, h6, h7⟩

@[simp] theorem State.reg_zero (s : State) : s.reg 0 = 0 := rfl

theorem State.reg_setReg (s : State) (a r : RegNum) (v : Word) :
    (s.setReg a v).reg r = if r = a ∧ a ≠ 0 then v else s.reg r := RegFile.read_write s.x a r v

@[simp] theorem State.reg_complete (s : State) (p : Word) (r : RegNum) : (s.complete p).reg r = s.reg r := rfl
@[simp] theorem State.reg_setHalt (s : State) (r : RegNum) : s.setHalt.reg r = s.reg r := rfl
@[simp] theorem State.reg_setBlocked (s : State) (r : RegNum) : s.setBlocked.reg r = s.reg r := rfl
@[simp] theorem State.reg_outPush (s : State) (v : Word) (r : RegNum) : (s.outPush v).reg r = s.reg r := rfl

end Sys2Proof.Machine
end

