-- ==== Sys2Proof/Laws/Ops.lean ====
section
/-! SUPPORT. What each shared operation, an instruction and a step can do, said once. -/

namespace Sys2Proof.Machine

theorem State.inPop_none_iff (s : State) : s.inPop = none ↔ s.inq = [] := by
  unfold State.inPop; split <;> simp_all

/-- All a pop can do (20_memory R47). -/
theorem State.inPop_some_iff (s t : State) (v : Word) :
    s.inPop = some (v, t) ↔ ∃ q, s.inq = v :: q ∧ t = { s with inq := q } := by
  unfold State.inPop; split <;> simp_all [eq_comm]

/-- Fault entry gives no next state (60_exceptions R205). -/
theorem State.faultEntry_ne_next (s t : State) (r : Raised) : s.faultEntry r ≠ .next t := by
  simp [State.faultEntry]

theorem Raised.toFault_pc (pc : Word) (r : Raised) : (Raised.toFault pc r).pc = pc := by cases r <;> rfl

theorem Raised.toFault_kind (pc : Word) (r : Raised) : (Raised.toFault pc r).kind = r.kind := by cases r <;> rfl

/-- The word index of an even address other than 0 is not 0 (20_memory R46). -/
theorem wordIndex_ne_zero {a : Word} (ho : isOdd a = false) (h : a ≠ portAddr) : wordIndex a ≠ 0 := fun h0 =>
  h ((wordIndex_inj (b := portAddr) ho rfl).1 h0)

/-- All `lw` can do when it gives a next state (43_load_store_io R130). -/
theorem execLw_next {a b : RegNum} {simm : Word} {s t : State} (h : execLw a b simm s = .next t) :
    (s.effectiveAddress b simm = portAddr ∧ s.inq = [] ∧ t = s.setBlocked) ∨
    (s.effectiveAddress b simm = portAddr ∧
      ∃ v q, s.inq = v :: q ∧ t = (({ s with inq := q } : State).setReg a v).complete s.nextPC) ∨
    (s.effectiveAddress b simm ≠ portAddr ∧
      ∃ v, memRead s.mem (s.effectiveAddress b simm) = .ok v ∧ t = (s.setReg a v).complete s.nextPC) := by
  unfold execLw at h
  by_cases hea : s.effectiveAddress b simm = portAddr
  · simp only [hea, if_true] at h
    cases hp : s.inPop with
    | none => rw [hp] at h; cases h; exact .inl ⟨hea, (State.inPop_none_iff s).1 hp, rfl⟩
    | some p =>
      obtain ⟨v, s'⟩ := p
      rw [hp] at h; cases h
      obtain ⟨q, hq, rfl⟩ := (State.inPop_some_iff s s' v).1 hp
      exact .inr (.inl ⟨hea, v, q, hq, rfl⟩)
  · simp only [hea, if_false] at h
    cases hm : memRead s.mem (s.effectiveAddress b simm) with
    | error r => rw [hm] at h; exact absurd h (s.faultEntry_ne_next t r)
    | ok v => rw [hm] at h; cases h; exact .inr (.inr ⟨hea, v, rfl, rfl⟩)

/-- All `sw` can do when it gives a next state (43_load_store_io R131). -/
theorem execSw_next {a b : RegNum} {simm : Word} {s t : State} (h : execSw a b simm s = .next t) :
    (s.effectiveAddress b simm = portAddr ∧ t = (s.outPush (s.reg a)).complete s.nextPC) ∨
    (s.effectiveAddress b simm ≠ portAddr ∧ isOdd (s.effectiveAddress b simm) = false ∧
      t = ({ s with mem := Memory.set s.mem (wordIndex (s.effectiveAddress b simm)) (s.reg a) } : State).complete s.nextPC) := by
  unfold execSw at h
  by_cases hea : s.effectiveAddress b simm = portAddr
  · simp only [hea, if_true] at h; cases h; exact .inl ⟨hea, rfl⟩
  · simp only [hea, if_false] at h
    cases hm : memWrite s.mem (s.effectiveAddress b simm) (s.reg a) with
    | error r => rw [hm] at h; exact absurd h (s.faultEntry_ne_next t r)
    | ok m =>
      rw [hm] at h; cases h
      obtain ⟨ho, rfl⟩ := (memWrite_ok_iff _ _ _ _).1 hm
      exact .inr ⟨hea, ho, rfl⟩

/-- All an instruction can do when it gives a next state: one register write, a blocked read, a pop, a push, a store to a
word other than word 0, a branch, or a halt. -/
theorem exec_next_cases {i : Instr} {s t : State} (h : exec i s = .next t) :
    (∃ a v, t = (s.setReg a v).complete s.nextPC) ∨
    (s.inq = [] ∧ t = s.setBlocked) ∨
    (∃ a v q, s.inq = v :: q ∧ t = (({ s with inq := q } : State).setReg a v).complete s.nextPC) ∨
    (∃ v, t = (s.outPush v).complete s.nextPC) ∨
    (∃ j v, j ≠ 0 ∧ j < memWords ∧ t = ({ s with mem := Memory.set s.mem j v } : State).complete s.nextPC) ∨
    (∃ p, t = s.complete p) ∨
    ((∃ a b simm, i = .hlt a b simm ∨ i = .jalr a b simm ∧ haltBit simm = true) ∧ t = s.setHalt.complete s.nextPC) := by
  cases i with
  | add a b c => cases h; exact .inl ⟨_, _, rfl⟩
  | addi a b simm => cases h; exact .inl ⟨_, _, rfl⟩
  | nand a b c => cases h; exact .inl ⟨_, _, rfl⟩
  | lui a imm => cases h; exact .inl ⟨_, _, rfl⟩
  | lw a b simm =>
    rcases execLw_next h with ⟨-, hq, rfl⟩ | ⟨-, v, q, hq, rfl⟩ | ⟨-, v, -, rfl⟩
    · exact .inr (.inl ⟨hq, rfl⟩)
    · exact .inr (.inr (.inl ⟨_, _, _, hq, rfl⟩))
    · exact .inl ⟨_, _, rfl⟩
  | sw a b simm =>
    rcases execSw_next h with ⟨-, rfl⟩ | ⟨hea, ho, rfl⟩
    · exact .inr (.inr (.inr (.inl ⟨_, rfl⟩)))
    · exact .inr (.inr (.inr (.inr (.inl ⟨_, _, wordIndex_ne_zero ho hea, wordIndex_lt _, rfl⟩))))
  | beq a b simm => cases h; exact .inr (.inr (.inr (.inr (.inr (.inl ⟨_, rfl⟩)))))
  | jalr a b simm =>
    change s.haltOrNothing simm = .next t at h
    unfold State.haltOrNothing at h
    cases h
    by_cases hb : haltBit simm = true
    · exact .inr (.inr (.inr (.inr (.inr (.inr ⟨⟨a, b, simm, .inr ⟨rfl, hb⟩⟩, by simp [hb]⟩)))))
    · exact .inr (.inr (.inr (.inr (.inr (.inl ⟨_, by simp only [hb]; rfl⟩)))))
  | hlt a b simm =>
    change s.haltOrNothing simm = .next t at h
    unfold State.haltOrNothing at h
    cases h
    by_cases hb : haltBit simm = true
    · exact .inr (.inr (.inr (.inr (.inr (.inr ⟨⟨a, b, simm, .inl rfl⟩, by simp [hb]⟩)))))
    · exact .inr (.inr (.inr (.inr (.inr (.inl ⟨_, by simp only [hb]; rfl⟩)))))

/-- All a step can do when it gives a next state (45_engine R150, R153). -/
theorem step_next_cases {s t : State} (h : step s = .next t) :
    (s.halt = true ∧ t = s) ∨
    (s.halt = false ∧ ∃ bits i, s.fetch = .ok bits ∧ decode bits = .ok i ∧ exec i s = .next t) := by
  unfold step engineStep at h
  cases hh : s.halt with
  | true => rw [hh] at h; cases h; exact .inl ⟨rfl, rfl⟩
  | false =>
    rw [hh] at h
    simp only [Bool.false_eq_true, if_false] at h
    cases hf : s.fetch with
    | error r => rw [hf] at h; exact absurd h (s.faultEntry_ne_next t r)
    | ok bits =>
      rw [hf] at h
      cases hd : decode bits with
      | error r => simp only [hd] at h; exact absurd h (s.faultEntry_ne_next t r)
      | ok i => simp only [hd] at h; exact .inr ⟨rfl, bits, i, rfl, hd, h⟩

/-- A reset with an image that fits: every field (70_reset_and_hazards R230). -/
theorem State.resetWith_ok_iff (image : List Word) (memInit : Nat → Word) (s : State) :
    State.resetWith image memInit = .ok s ↔ image.length ≤ memWords ∧
      s = { State.reset with mem := Memory.install (Memory.ofFn memInit) 0 image } := by
  unfold State.resetWith; split <;> simp_all [eq_comm]

/-- A load that fits: every field (70_reset_and_hazards R232). -/
theorem State.loadProgram_ok_iff (s t : State) (words : List Word) :
    s.loadProgram words = .ok t ↔ words.length ≤ memWords ∧
      t = { s with x := RegFile.zero, pc := 0, halt := false, blocked := false, mem := Memory.install s.mem 0 words } := by
  unfold State.loadProgram; split <;> simp_all [eq_comm]

/-- A push of an input: every field (45_engine R162). -/
theorem State.pushInput_ok_iff (s t : State) (v : Word) :
    s.pushInput v = .ok t ↔ s.inq.length ≠ inqCap ∧ t = { s with inq := s.inq ++ [v] } := by
  unfold State.pushInput; split <;> simp_all [eq_comm]

end Sys2Proof.Machine
end

