-- ==== Sys2Proof/Laws/PerInstr.lean ====
section
/-! SUPPORT. Families of statements made per instruction. -/

namespace Sys2Proof.Laws

/-- The low bits of a format do not reach its opcode: format RRR. -/
theorem encodeRRR_and_mask (op a b c : RegNum) : encodeRRR op a b c &&& 0xE078#16 = op.setWidth 16 <<< 13 := by
  unfold encodeRRR
  ext i hi
  interval_cases i <;> simp [BitVec.getLsbD_eq_getElem]

/-- Format RRI. -/
theorem encodeRRI_and_mask (op a b : RegNum) (imm : Word) :
    encodeRRI op a b imm &&& 0xE000#16 = op.setWidth 16 <<< 13 := by
  unfold encodeRRI
  ext i hi
  interval_cases i <;> simp [BitVec.getLsbD_eq_getElem]

/-- Format RRI with the halt bit. -/
theorem encodeRRI_and_haltMask (op a b : RegNum) (imm : Word) :
    encodeRRI op a b imm &&& 0xE001#16 = op.setWidth 16 <<< 13 ||| (imm &&& 1#16) := by
  unfold encodeRRI
  ext i hi
  interval_cases i <;> simp [BitVec.getLsbD_eq_getElem]

/-- Format RI. -/
theorem encodeRI_and_mask (op a : RegNum) (imm : Word) :
    encodeRI op a imm &&& 0xE000#16 = op.setWidth 16 <<< 13 := by
  unfold encodeRI
  ext i hi
  interval_cases i <;> simp [BitVec.getLsbD_eq_getElem]

/-- The bit 0 of a word, alone. -/
theorem and_one_of_bit (v : Word) : v &&& 1#16 = if v.getLsbD 0 then 1#16 else 0#16 := by
  ext i hi
  cases h : v.getLsbD 0 <;> interval_cases i <;> simp_all [BitVec.getLsbD_eq_getElem]

namespace EncodedRow

/-- The word of a well-formed instruction lies in its row of the opcode table (30_encoding R71). -/
def Statement (i : Instr) : Prop := i.WellFormed → encode i &&& i.rowMask = i.rowMatch

theorem add (a b c : RegNum) : Statement (.add a b c) := fun _ => (encodeRRR_and_mask 0 a b c).trans rfl
theorem addi (a b : RegNum) (simm : Word) : Statement (.addi a b simm) := fun _ =>
  (encodeRRI_and_mask 1 a b simm).trans rfl
theorem nand (a b c : RegNum) : Statement (.nand a b c) := fun _ => (encodeRRR_and_mask 2 a b c).trans rfl
theorem lui (a : RegNum) (imm : Word) : Statement (.lui a imm) := fun _ => (encodeRI_and_mask 3 a imm).trans rfl
theorem lw (a b : RegNum) (simm : Word) : Statement (.lw a b simm) := fun _ =>
  (encodeRRI_and_mask 4 a b simm).trans rfl
theorem sw (a b : RegNum) (simm : Word) : Statement (.sw a b simm) := fun _ =>
  (encodeRRI_and_mask 5 a b simm).trans rfl
theorem beq (a b : RegNum) (simm : Word) : Statement (.beq a b simm) := fun _ =>
  (encodeRRI_and_mask 6 a b simm).trans rfl
theorem jalr (a b : RegNum) (simm : Word) : Statement (.jalr a b simm) := fun h => by
  have hb : simm.getLsbD 0 = false := by
    have := of_decide_eq_true h
    simpa using this.2
  refine (encodeRRI_and_haltMask 7 a b simm).trans ?_
  rw [and_one_of_bit, hb]
  rfl
theorem hlt (a b : RegNum) (simm : Word) : Statement (.hlt a b simm) := fun h => by
  have hb : simm.getLsbD 0 = true := (of_decide_eq_true h).2
  refine (encodeRRI_and_haltMask 7 a b simm).trans ?_
  rw [and_one_of_bit, hb]
  rfl

end EncodedRow

end Sys2Proof.Laws
end

