-- ==== Sys2Proof/Tests/Slice0.lean ====
section
/-! SUPPORT. Tests: expected values are the spec's (95_test_vectors and the field layouts of 30_encoding), not the model's.
The `witness_` theorems show values that meet all the hypotheses of an obligation together, one for each clause. -/

namespace Sys2Proof.Tests

open Sys2Proof Sys2Proof.Machine

/-! ### The well-formedness check refuses what no word can hold -/

theorem test_wf_addi_refused : ¬ (Instr.addi 1 2 64).WellFormed := by decide
theorem test_wf_lw_refused : ¬ (Instr.lw 1 2 0xFFBF).WellFormed := by decide
theorem test_wf_sw_refused : ¬ (Instr.sw 1 2 0x0080).WellFormed := by decide
theorem test_wf_beq_refused : ¬ (Instr.beq 0 0 64).WellFormed := by decide
theorem test_wf_lui_refused : ¬ (Instr.lui 1 1024).WellFormed := by decide
theorem test_wf_jalr_range_refused : ¬ (Instr.jalr 1 2 64).WellFormed := by decide
theorem test_wf_jalr_halt_bit_refused : ¬ (Instr.jalr 1 2 1).WellFormed := by decide
theorem test_wf_hlt_range_refused : ¬ (Instr.hlt 0 0 65).WellFormed := by decide
theorem test_wf_hlt_halt_bit_refused : ¬ (Instr.hlt 0 0 2).WellFormed := by decide

/-! ### Decoding of words written bit by bit (30_encoding R61 to R64; 95_test_vectors A1, B2, B4, B5, B6) -/

theorem test_decode_add : decode 0b0001111110000111#16 = .ok (.add 7 7 7) := by decide
theorem test_decode_addi : decode 0b0010000001000000#16 = .ok (.addi 0 0 0xFFC0) := by decide
theorem test_decode_nand : decode 0b0101101000000010#16 = .ok (.nand 6 4 2) := by decide
theorem test_decode_lui : decode 0b0111111111111111#16 = .ok (.lui 7 1023) := by decide
theorem test_decode_lw : decode 0b1000010101000000#16 = .ok (.lw 1 2 0xFFC0) := by decide
theorem test_decode_sw : decode 0b1010110010000010#16 = .ok (.sw 3 1 2) := by decide
theorem test_decode_beq : decode 0b1100010100000110#16 = .ok (.beq 1 2 6) := by decide
theorem test_decode_jalr : decode 0b1110000010000010#16 = .ok (.jalr 0 1 2) := by decide
theorem test_decode_hlt : decode 0b1111111111111111#16 = .ok (.hlt 7 7 0xFFFF) := by decide
theorem test_decode_malformed_add :
    decode 0b0000000000001000#16 = .error (.malformedInstruction 0x0008) := by decide
theorem test_decode_malformed_nand :
    decode 0b0100000000010000#16 = .error (.malformedInstruction 0x4010) := by decide
theorem test_decode_diagnostics :
    decodeDiagnostics 0xE001 = [.jalrNonZeroImmediate 0xE001] ∧ decodeDiagnostics 0xE000 = [] := by decide
theorem test_table_word : decodeTableWord 16 0x0C82 = some (.add 3 1 2) ∧ decodeTableWord 16 0x0008 = none := by decide

/-! ### The encoder (95_test_vectors B3) -/

theorem test_encode_register_forms : asmAdd 3 1 2 = 0x0C82 ∧ asmNand 5 4 4 = 0x5604 ∧ asmJalr 1 2 = 0xE500 := by decide
theorem test_encode_addi : asmAddi 1 1 (-1) = .ok 0x24FF ∧ asmAddi 1 0 64 = .error (.immediateOutOfRange 64) := by decide
theorem test_encode_lw_sw : asmLw 1 2 (-64) = .ok 0x8540 ∧ asmSw 1 0 (-2) = .ok 0xA47E := by decide
theorem test_encode_beq : asmBeq 1 2 63 = .ok 0xC53F ∧ asmBeq 0 0 (-4) = .ok 0xC07C := by decide
theorem test_encode_lui : asmLui 2 1023 = .ok 0x6BFF ∧ asmLui 1 (-1) = .error (.immediateOutOfRange (-1)) := by decide

/-! ### The codec (95_test_vectors B1) -/

theorem test_extract_field : extractField 0xABCD 4 8 = 0x00BC ∧ extractField 0xABCD 16 0 = 0 := by decide
theorem test_sign_extend : signExtend 0x0200 9 = 0xFE00 ∧ signExtend 0xFF3F 6 = 0x003F := by decide

/-! ### One step of each instruction (95_test_vectors A4, B4 to B6) -/

/-- A state after reset with some registers and memory words set. -/
def mk (pc : Word) (mem : Memory) (x1 x2 : Word) : State :=
  { State.reset with pc := pc, mem := mem, x := { RegFile.zero with x1 := x1, x2 := x2 } }

theorem test_add_wraps :
    (mk 0 [(0, 0x0C82)] 0xFFFF 2).stepCommand.1.reg 3 = 1 ∧
      (mk 0 [(0, 0x0C82)] 0xFFFF 2).stepCommand.2 = .continued := by decide
theorem test_add_source_is_destination : (mk 0 [(0, 0x0481)] 3 0).stepCommand.1.reg 1 = 6 := by decide
theorem test_nand : (mk 0 [(0, 0x4881)] 0xFFFF 7).stepCommand.1.reg 2 = 0 := by decide
theorem test_nand_of_zero : (mk 0 [(0, 0x4400)] 5 7).stepCommand.1.reg 1 = 0xFFFF := by decide
theorem test_lui : (mk 0 [(0, 0x6404)] 0xFFFF 0).stepCommand.1.reg 1 = 0x0100 := by decide
theorem test_addi_negative : (mk 0 [(0, 0x24FF)] 0 0).stepCommand.1.reg 1 = 0xFFFF := by decide
theorem test_addi_wraps : (mk 0 [(0, 0x2501)] 9 0xFFFF).stepCommand.1.reg 1 = 0 := by decide
theorem test_lw_pops_at_wrapped_address :
    ({ mk 0 [(0, 0x8540)] 9 0x0040 with inq := [3] }).stepCommand =
      ({ mk 2 [(0, 0x8540)] 3 0x0040 with inq := [] }, .continued) := by decide
theorem test_lw_from_memory : (mk 0 [(0, 0x8802), (1, 0xBEEF)] 0 0).stepCommand.1.reg 2 = 0xBEEF := by decide
theorem test_sw_appends :
    (mk 0 [(0, 0xA400)] 42 0).stepCommand.1.out = [42] ∧
      (mk 0 [(0, 0xA400)] 42 0).stepCommand.1.mem = [(0, 0xA400)] := by decide
theorem test_sw_to_top_word :
    (mk 0 [(0, 0xA47E)] 0xE001 0).stepCommand.1.mem = [(0, 0xA47E), (0x7FFF, 0xE001)] := by decide
theorem test_beq_taken_wraps : (mk 0 [(0, 0xC07C)] 0 0).stepCommand.1.pc = 0xFFFE := by decide
theorem test_beq_not_taken : (mk 0x10 [(8, 0xC506)] 5 6).stepCommand.1.pc = 0x12 := by decide
theorem test_jalr_is_a_no_operation :
    (mk 0 [(0, 0xE500)] 1 0x0100).stepCommand = (mk 2 [(0, 0xE500)] 1 0x0100, .continued) ∧
      stepDiagnostics (mk 0 [(0, 0xE500)] 1 0x0100) = [.unimplementedFeature 0 0xE500] := by decide
theorem test_hlt :
    (mk 0xFFFE [(0x7FFF, 0xE001)] 0 0).stepCommand =
      ({ mk 0 [(0x7FFF, 0xE001)] 0 0 with halt := true }, .halted) := by decide
theorem test_jalr_two_diagnostics : (stepDiagnostics (mk 0 [(0, 0xE082)] 0 0)).length = 2 := by decide

/-! ### Host commands and the disassembler (95_test_vectors B7, B8) -/

theorem test_push_into_full_queue :
    ({ State.reset with inq := List.replicate 10 5 }).perform (.pushInput 1) =
      ({ State.reset with inq := List.replicate 10 5 }, .failed .inputQueueFull) := by decide
theorem test_load_keeps_queue_log_and_upper_memory :
    ({ mk 6 [(0, 1), (1, 7)] 3 4 with halt := true, blocked := true, inq := [9], out := [13] }).loadProgram [0xE001] =
      .ok { mk 0 [(0, 0xE001), (1, 7)] 0 0 with inq := [9], out := [13] } := by decide
theorem test_disassemble_at_zero : (mk 0 [(0, 0x8400)] 0 0).disassembleAt 0 = .ok "lw R1, R0, 0" := by decide
theorem test_disassemble_at_failures :
    (mk 0 [(2, 0x0008)] 0 0).disassembleAt 1 = .error (.notDisassembled (.unalignedAccess 1)) ∧
    (mk 0 [(2, 0x0008)] 0 0).disassembleAt 4 = .error (.notDisassembled (.malformedInstruction 0x0008)) := by decide
theorem test_texts_immediate :
    disassemble (.addi 1 1 0xFFFF) = "addi R1, R1, -1" ∧ disassemble (.lui 7 1023) = "lui R7, 1023" := by decide
theorem test_texts_jalr :
    disassemble (.jalr 0 0 1) = "hlt" ∧ disassemble (.jalr 1 2 0) = "jalr R1, R2" ∧
    disassemble (.jalr 1 0 1) = "jalr R1, R0, 1" := by decide

/-! ### Witnesses: codec, decoder, encoder -/

theorem witness_DecodeOfEncode :
    (Instr.addi 7 0 63).WellFormed ∧ (Instr.lw 0 7 0xFFC0).WellFormed ∧ (Instr.lui 1 1023).WellFormed ∧
    (Instr.jalr 1 2 0xFFFE).WellFormed ∧ (Instr.hlt 7 7 63).WellFormed := by decide
theorem witness_EncodeOfDecode : decode 0xFFC0 = .ok (.jalr 7 7 0xFFC0) ∧ decode 0 = .ok (.add 0 0 0) := by decide
theorem witness_EncoderDecoderRoundTrip :
    decodeVariant 0xFFFF = .ok (.jalr 7 7 0xFFFF) ∧ asmAddi 1 0 63 = .ok 0x243F ∧ asmLw 1 0 0 = .ok 0x8400 ∧
    asmSw 1 0 (-64) = .ok 0xA440 ∧ asmBeq 1 2 63 = .ok 0xC53F ∧ asmLui 2 1023 = .ok 0x6BFF := by decide
theorem witness_MalformedWordsFail :
    (mk 0 [(0, 0x0008)] 0 0).halt = false ∧ (mk 0 [(0, 0x0008)] 0 0).fetch = .ok 0x0008 ∧
    0x0008#16 &&& 0xA000#16 = 0#16 ∧ 0x0008#16 &&& 0x0078#16 ≠ 0#16 := by decide
theorem witness_ExtractFieldIsTheField : 0 + 16 ≤ 16 ∧ 16 + 0 ≤ 16 ∧ 15 + 1 ≤ 16 ∧ 1 ≤ 1 := by decide
theorem witness_SignExtendCopiesTheSignBit : 0 ≤ 15 ∧ 15 ≤ 15 ∧ 0 < 16 := by decide
theorem witness_ShifterEqualsCodec : (0 + 16 ≤ 16 ∧ 1 ≤ 16) ∧ (15 + 1 ≤ 16 ∧ 1 ≤ 1) ∧ 15 ≤ 15 := by decide
theorem witness_SignedImmediateEncoders :
    (-64 ≤ (-64 : Int) ∧ (-64 : Int) ≤ 63) ∧ (-64 ≤ (63 : Int) ∧ (63 : Int) ≤ 63) ∧ (-65 : Int) < -64 ∧ 63 < (64 : Int) := by
  decide
theorem witness_LuiEncoder :
    (0 ≤ (0 : Int) ∧ (0 : Int) ≤ 1023) ∧ (0 ≤ (1023 : Int) ∧ (1023 : Int) ≤ 1023) ∧ (-1 : Int) < 0 ∧ 1023 < (1024 : Int) := by
  decide

/-! ### Witnesses: reset and memory -/

theorem witness_ResetInstallsTheImage :
    ([] : List Word).length ≤ 32768 ∧ (List.replicate 32768 (1 : Word)).length ≤ 32768 ∧
    isOdd 0 = false ∧ isOdd 0xFFFE = false ∧ 32768 < (List.replicate 32769 (1 : Word)).length := by
  simp only [List.length_replicate]; decide
theorem witness_ResetIsWellFormed : ∃ s, State.resetWith [0xE001] (fun _ => 0) = .ok s :=
  ⟨_, if_pos (by decide)⟩
theorem witness_StepKeepsWellFormed :
    ({ State.reset with mem := [(0, 0xA47E)], inq := List.replicate 10 1 }).wf ∧
    step { State.reset with mem := [(0, 0xA47E)], inq := List.replicate 10 1 } =
      .next { State.reset with pc := 2, mem := [(0, 0xA47E)], inq := List.replicate 10 1 } := ⟨by decide, rfl⟩
theorem witness_CommandsKeepWellFormed : (mk 0 [(0, 1), (32767, 2)] 0 0).wf := by decide
theorem witness_CanonicalMemoryIsUnique :
    Memory.wf [(0, 1), (32767, 2)] ∧ ∀ addr, memRead [(0, 1), (32767, 2)] addr = memRead [(0, 1), (32767, 2)] addr :=
  ⟨by decide, fun _ => rfl⟩
theorem witness_MemoryReadAndWrite :
    (1 : Word).getLsbD 0 = true ∧ (0xFFFF : Word).getLsbD 0 = true ∧
    (0 : Word).getLsbD 0 = false ∧ (0xFFFE : Word).getLsbD 0 = false := by decide
theorem witness_RegisterZeroIsHardwired :
    (7 : RegNum) ≠ 0 ∧ ({ State.reset with inq := [9] }).reg 0 = 0 ∧ ({ State.reset with inq := [9] }).inq = 9 :: [] := by
  decide

/-! ### Witnesses: instructions -/

theorem witness_AddWritesTheSum : State.reset.halt = false := by decide
theorem witness_NandWritesTheComplement : State.reset.halt = false := by decide
theorem witness_AddiAddsTheImmediate : State.reset.halt = false := by decide
theorem witness_BeqBranchesOnEquality : State.reset.halt = false := by decide
theorem witness_LuiLoadsTheUpperBits : State.reset.halt = false ∧ (1 : RegNum) ≠ 0 := by decide

/-- The four cases of `lw`, at addresses that wrap and at both ends of each range. -/
theorem witness_LwReadsPortOrMemory :
    ((mk 0 [] 0 0x40).reg 2 + 0xFFC0 = 0 ∧ (mk 0 [] 0 0x40).inq = [] ∧ (mk 0 [] 0 0x40).halt = false) ∧
    (({ mk 0 [] 0 0xFFFF with inq := [4] }).reg 2 + 1 = 0 ∧ ({ mk 0 [] 0 0xFFFF with inq := [4] }).inq = 4 :: []) ∧
    ((mk 0 [] 0 0).reg 0 + 1).getLsbD 0 = true ∧ ((mk 0 [] 0 0).reg 0 + 0xFFFF).getLsbD 0 = true ∧
    ((mk 0 [] 0 0).reg 0 + 2 ≠ 0 ∧ ((mk 0 [] 0 0).reg 0 + 2).getLsbD 0 = false) ∧
    ((mk 0 [] 0 0).reg 0 + 0xFFFE ≠ 0 ∧ ((mk 0 [] 0 0).reg 0 + 0xFFFE).getLsbD 0 = false) := by decide

/-- The three cases of `sw`. -/
theorem witness_SwWritesPortOrMemory :
    (mk 0 [] 8 0x40).effectiveAddress 2 0xFFC0 = 0 ∧ (mk 0 [] 8 0x40).halt = false ∧
    ((mk 0 [] 8 0).effectiveAddress 0 1).getLsbD 0 = true ∧
    ((mk 0 [] 8 0).effectiveAddress 0 2 ≠ 0 ∧ ((mk 0 [] 8 0).effectiveAddress 0 2).getLsbD 0 = false) ∧
    ((mk 0 [] 8 0).effectiveAddress 0 0xFFFE ≠ 0 ∧ ((mk 0 [] 8 0).effectiveAddress 0 0xFFFE).getLsbD 0 = false) := by decide

theorem witness_JalrHaltsOrDoesNothing :
    (Instr.jalr 1 2 0 = .jalr 1 2 0 ∨ Instr.jalr 1 2 0 = .hlt 1 2 0) ∧
    (Instr.hlt 7 7 1 = .jalr 7 7 1 ∨ Instr.hlt 7 7 1 = .hlt 7 7 1) ∧
    (mk 0 [(0, 0xE500)] 0 0).halt = false ∧ (mk 0 [(0, 0xE500)] 0 0).fetch = .ok 0xE500 ∧
    decodeVariant 0xE500 = .ok (.jalr 1 2 0) := by decide
theorem witness_HltHaltsForGood : (Instr.hlt 0 0 1).WellFormed ∧ (Instr.hlt 7 7 0xFFFF).WellFormed := by decide

/-- Both directions: a blocked `lw` and an instruction that clears the flag. -/
theorem witness_BlockedMeansWaitingForInput :
    exec (.lw 1 0 0) State.reset = .next { State.reset with blocked := true } ∧
    exec (.add 0 0 0) { State.reset with blocked := true } = .next { State.reset with pc := 2 } := ⟨rfl, rfl⟩

/-! ### Witnesses: the step -/

theorem witness_StepRunsTheDecodedInstruction :
    (mk 0xFFFE [(0x7FFF, 0x2001)] 0 0).halt = false ∧ (mk 0xFFFE [(0x7FFF, 0x2001)] 0 0).pc.getLsbD 0 = false ∧
    Memory.get (mk 0xFFFE [(0x7FFF, 0x2001)] 0 0).mem ((mk 0xFFFE [(0x7FFF, 0x2001)] 0 0).pc.toNat / 2) = 0x2001 ∧
    decode 0x2001 = .ok (.addi 0 0 1) := by decide
theorem witness_HaltedMachineStaysPut : ({ State.reset with halt := true }).halt = true := by decide
theorem witness_OddPcFaultsForEver : (mk 0x0051 [] 0 0).halt = false ∧ (mk 0x0051 [] 0 0).pc.getLsbD 0 = true := by decide
theorem witness_MalformedWordFaultsForEver :
    (mk 0 [(0, 0x5FFF)] 0 0).halt = false ∧ (mk 0 [(0, 0x5FFF)] 0 0).fetch = .ok 0x5FFF ∧
    decode 0x5FFF = .error (.malformedInstruction 0x5FFF) := by decide

/-- One fault of each cause: the fetch, the decoder, `lw` and `sw`. -/
theorem witness_FaultsArePrecise :
    step (mk 0x0051 [] 0 0) = .fault (.unalignedAccess 0x0051 0x0051) ∧
    step (mk 0 [(0, 0x0008)] 0 0) = .fault (.malformedInstruction 0 0x0008) ∧
    step (mk 0 [(0, 0x8880)] 3 0) = .fault (.unalignedAccess 0 3) ∧
    step (mk 0 [(0, 0xA881)] 4 0) = .fault (.unalignedAccess 0 5) := ⟨rfl, rfl, rfl, rfl⟩

/-- One state for each row of the table of results; `Halted` has two. -/
theorem witness_StepResultTable :
    (mk 0 [] 0 0).stepCommand.2 = .continued ∧ ({ State.reset with halt := true }).stepCommand.2 = .halted ∧
    (mk 0 [(0, 0xE001)] 0 0).stepCommand.2 = .halted ∧ (mk 0 [(0, 0x8400)] 0 0).stepCommand.2 = .blockedOnInput ∧
    (mk 1 [] 0 0).stepCommand.2 = .fault (.unalignedAccess 1 1) := by decide
theorem witness_HaltFlagWriters :
    (((mk 0 [(0, 0xE001)] 0 0).perform .step).1.halt = true ∧ (mk 0 [(0, 0xE001)] 0 0).halt = false) ∧
    (mk 0 [(0, 0xE001)] 0 0).stepCommand.1.halt = true ∧
    ((({ State.reset with halt := true }).perform (.loadProgram [])).1.halt = false ∧
      ({ State.reset with halt := true }).halt = true) := by decide
theorem witness_WordZeroOnlyWrittenByLoad :
    ∀ c ∈ [HostCommand.step, .runToHalt 3, .pushInput 1], c.isLoad = false := by decide
theorem witness_PcParityAfterStep :
    (mk 0 [(0, 0xC001)] 0 0).pc.getLsbD 0 = false ∧
    step (mk 0 [(0, 0xC001)] 0 0) = .next (mk 3 [(0, 0xC001)] 0 0) := ⟨rfl, rfl⟩
theorem witness_StoreIsSeenByFetch :
    exec (.sw 1 0 0xFFFE) (mk 0 [] 7 0) = .next (mk 2 [(0x7FFF, 7)] 7 0) ∧
    (mk 0 [] 7 0).effectiveAddress 0 0xFFFE ≠ 0 ∧
    (mk 0xFFFE [(0x7FFF, 7)] 0 0).mem = (mk 2 [(0x7FFF, 7)] 7 0).mem := ⟨rfl, by decide, rfl⟩
theorem witness_BlockedLoadRetries :
    (mk 0 [(0, 0x8400)] 0 0).nextInstr = some (.lw 1 0 0) ∧ (mk 0 [(0, 0x8400)] 0 0).reg 0 + 0 = 0 ∧
    (mk 0 [(0, 0x8400)] 0 0).inq = [] := by decide
theorem witness_InputQueueIsFifo :
    (mk 0 [(0, 0x8400)] 0 0).inq = [] ∧ (1 :: List.replicate 9 (2 : Word)).length ≤ 10 ∧
    (mk 0 [(0, 0x8400)] 0 0).nextInstr = some (.lw 1 0 0) ∧ (mk 0 [(0, 0x8400)] 0 0).reg 0 + 0 = 0 := by decide
theorem witness_BlockedFlagIsNotRead : ({ State.reset with blocked := true }).halt = false := by decide
theorem witness_OutputLogIsNotRead :
    step { mk 0 [(0, 0xA400)] 42 0 with out := [5] } = .next { mk 2 [(0, 0xA400)] 42 0 with out := [5, 42] } := rfl
theorem witness_StepDiagnosticsByWord :
    (mk 0 [(0, 0xE002)] 0 0).halt = false ∧ (mk 0 [(0, 0xE002)] 0 0).fetch = .ok 0xE002 ∧
    (0xE002#16).extractLsb' 13 3 = 0b111#3 ∧ (mk 0 [(0, 0x2001)] 0 0).fetch = .ok 0x2001 ∧
    (0x2001#16).extractLsb' 13 3 ≠ 0b111#3 := by decide
theorem witness_PlacedWordIsRun : decode 0xFFFF = .ok (.hlt 7 7 0xFFFF) ∧ (mk 0xFFFE [] 0 0).pc.getLsbD 0 = false := by decide

/-! ### Witnesses: the host's commands -/

theorem witness_RunBudgetsAdd :
    ((mk 0 [(0, 0xC07E)] 0 0).runToHalt 2).2 = .continued ∧
    StepResult.halted ≠ .continued ∧ ((mk 0 [(1, 0xE001)] 0 0).runToHalt 3).2 = .halted := by decide
theorem witness_PushInputAppendsOrFails :
    ({ State.reset with inq := List.replicate 10 1 }).inq.length = 10 ∧
    ({ State.reset with inq := List.replicate 9 1 }).inq.length < 10 := by decide
theorem witness_LoadProgramRestarts :
    ([0xE001] : List Word).length ≤ 32768 ∧ (List.replicate 32768 (1 : Word)).length ≤ 32768 ∧ isOdd 0xFFFE = false ∧
    32768 < (List.replicate 32769 (1 : Word)).length := by simp only [List.length_replicate]; decide
theorem witness_OtherCommandsLeaveTheCoreAlone :
    HostCommand.isLoad .registers = false ∧ HostCommand.executes .registers = false ∧
    ∀ v, HostCommand.registers ≠ .pushInput v := ⟨rfl, rfl, fun _ h => by cases h⟩
theorem witness_DisassembleAtReadsMemory :
    (1 : Word).getLsbD 0 = true ∧ (0xFFFE : Word).getLsbD 0 = false ∧
    decode (Memory.get (mk 0 [(0x7FFF, 0xE001)] 0 0).mem ((0xFFFE : Word).toNat / 2)) = .ok (.hlt 0 0 1) ∧
    decode (Memory.get (mk 0 [(0x7FFF, 8)] 0 0).mem ((0xFFFE : Word).toNat / 2)) = .error (.malformedInstruction 8) := by
  decide
theorem witness_DisassemblyIsInjective :
    decodeVariant 0xE001 = .ok (.jalr 0 0 1) ∧ disassemble (.jalr 0 0 1) = disassemble (.jalr 0 0 1) := ⟨rfl, rfl⟩

end Sys2Proof.Tests
end

section
/-! PROOFS. The laws of the step and of the host's commands that statements about runs need, then the statements about the
state (10_state). -/

namespace Sys2Proof.Machine

/-! ### `lw` and `sw`, one equation per case -/

/-- The blocked read (43_load_store_io R130). -/
theorem execLw_port_empty {a b : RegNum} {simm : Word} {s : State} (hea : s.effectiveAddress b simm = portAddr)
    (hq : s.inq = []) : execLw a b simm s = .next s.setBlocked := by
  simp [execLw, hea, (State.inPop_none_iff s).2 hq]

/-- The pop (43_load_store_io R130). -/
theorem execLw_port_cons {a b : RegNum} {simm v : Word} {q : List Word} {s : State}
    (hea : s.effectiveAddress b simm = portAddr) (hq : s.inq = v :: q) :
    execLw a b simm s = .next ((({ s with inq := q } : State).setReg a v).complete s.nextPC) := by
  simp [execLw, hea, (State.inPop_some_iff s _ v).2 ⟨q, hq, rfl⟩]

/-- The load from memory (43_load_store_io R130). -/
theorem execLw_memory {a b : RegNum} {simm v : Word} {s : State} (hea : s.effectiveAddress b simm ≠ portAddr)
    (hm : memRead s.mem (s.effectiveAddress b simm) = .ok v) :
    execLw a b simm s = .next ((s.setReg a v).complete s.nextPC) := by
  simp [execLw, hea, hm]

/-- The push to the output port (43_load_store_io R131). -/
theorem execSw_port {a b : RegNum} {simm : Word} {s : State} (hea : s.effectiveAddress b simm = portAddr) :
    execSw a b simm s = .next ((s.outPush (s.reg a)).complete s.nextPC) := by
  simp [execSw, hea]

/-- The store to memory (43_load_store_io R131). -/
theorem execSw_memory {a b : RegNum} {simm : Word} {s : State} (hea : s.effectiveAddress b simm ≠ portAddr)
    (ho : isOdd (s.effectiveAddress b simm) = false) :
    execSw a b simm s = .next
      (({ s with mem := Memory.set s.mem (wordIndex (s.effectiveAddress b simm)) (s.reg a) } : State).complete
        s.nextPC) := by
  simp [execSw, hea, memWrite_even ho]

/-- The variant `Jalr` on both of its paths, every field (44_control R142). -/
theorem State.haltOrNothing_eq (s : State) (simm : Word) :
    s.haltOrNothing simm =
      .next { s with halt := s.halt || haltBit simm, pc := s.nextPC, blocked := false } := by
  cases hb : haltBit simm <;> simp [State.haltOrNothing, hb, State.complete, State.setHalt]

/-! ### The step and the instruction it runs -/

/-- The instruction a step runs (45_engine R150). -/
theorem State.nextInstr_eq_some_iff (s : State) (i : Instr) :
    s.nextInstr = some i ↔ s.halt = false ∧ ∃ bits, s.fetch = .ok bits ∧ decode bits = .ok i := by
  unfold State.nextInstr
  cases s.halt <;> cases s.fetch with
  | error r => simp
  | ok bits => cases hd : decode bits <;> simp [hd, Except.toOption]

theorem State.nextInstr_of_halt {s : State} (h : s.halt = true) : s.nextInstr = none := if_pos h

/-- A step runs the instruction it has fetched and decoded (45_engine R150). -/
theorem step_of_nextInstr {s : State} {i : Instr} (h : s.nextInstr = some i) : step s = exec i s := by
  obtain ⟨hh, bits, hf, hd⟩ := (s.nextInstr_eq_some_iff i).1 h
  simp [step, engineStep, hh, hf, hd]

/-- A halted machine does nothing (45_engine R153, D3). -/
theorem step_of_halt {s : State} (h : s.halt = true) : step s = .next s := if_pos h

/-- All a step can do when it gives a next state, with the instruction it ran. -/
theorem step_next_nextInstr {s t : State} (h : step s = .next t) :
    (s.halt = true ∧ t = s) ∨ ∃ i, s.nextInstr = some i ∧ exec i s = .next t := by
  rcases step_next_cases h with hhalt | ⟨hh, bits, i, hf, hd, he⟩
  · exact .inl hhalt
  · exact .inr ⟨i, (s.nextInstr_eq_some_iff i).2 ⟨hh, bits, hf, hd⟩, he⟩

/-- The state after `step` as a command is the next state, or, after a fault, the state as it was (60_exceptions R205). -/
theorem State.stepCommand_fst_cases (s : State) : step s = .next s.stepCommand.1 ∨ s.stepCommand.1 = s := by
  unfold State.stepCommand
  cases step s with
  | next t => exact .inl rfl
  | fault f => exact .inr rfl
  | refused r => exact .inr rfl

/-! ### Runs and commands -/

/-- A run is a number of steps (45_engine R157). -/
theorem State.runToHalt_fst (s : State) (n : Nat) : ∃ k, (s.runToHalt n).1 = s.stepTimes k := by
  induction n generalizing s with
  | zero => exact ⟨0, rfl⟩
  | succ n ih =>
    simp only [State.runToHalt]
    split
    · next t h =>
      obtain ⟨k, hk⟩ := ih t
      exact ⟨k + 1, by simp [hk, State.stepTimes, h]⟩
    · next t r _ h => exact ⟨1, by simp [State.stepTimes, h]⟩

theorem State.orUnchanged_fst_cases (s : State) (e : Except HostError State) :
    (s.orUnchanged e).1 = s ∨ e = .ok (s.orUnchanged e).1 := by
  cases e with
  | ok t => exact .inr rfl
  | error e => exact .inl rfl

/-- All a command can do to the state (45_engine R160, R165): nothing, a load, a push of an input, or a number of steps. -/
theorem State.perform_fst_cases (s : State) (c : HostCommand) :
    (s.perform c).1 = s ∨
    (∃ ws, c = .loadProgram ws ∧ s.loadProgram ws = .ok (s.perform c).1) ∨
    (∃ v, c = .pushInput v ∧ s.pushInput v = .ok (s.perform c).1) ∨
    (c.executes = true ∧ ∃ k, (s.perform c).1 = s.stepTimes k) := by
  cases c with
  | loadProgram ws => exact (s.orUnchanged_fst_cases _).imp_right fun h => .inl ⟨ws, rfl, h⟩
  | step => exact .inr (.inr (.inr ⟨rfl, 1, rfl⟩))
  | runToHalt n => exact .inr (.inr (.inr ⟨rfl, s.runToHalt_fst n⟩))
  | pushInput v => exact (s.orUnchanged_fst_cases _).imp_right fun h => .inr (.inl ⟨v, rfl, h⟩)
  | drainAvailableInputs => exact .inl rfl
  | outputs => exact .inl rfl
  | registers => exact .inl rfl
  | programCounter => exact .inl rfl
  | disassembleAt addr =>
    left
    simp only [State.perform]
    split <;> rfl

section
variable {R : State → State → Prop} (hrefl : ∀ s, R s s) (htrans : ∀ {s t u}, R s t → R t u → R s u)
  (hstep : ∀ {s t}, step s = .next t → R s t)
include hrefl htrans hstep

/-- The induction over steps: what a next state keeps, any number of steps keep. -/
theorem State.stepTimes_rel (s : State) (n : Nat) : R s (s.stepTimes n) := by
  induction n generalizing s with
  | zero => exact hrefl s
  | succ n ih =>
    have hfirst : R s s.stepCommand.1 := by
      rcases s.stepCommand_fst_cases with h | h
      · exact hstep h
      · rw [h]; exact hrefl s
    exact htrans hfirst (ih s.stepCommand.1)

variable (hload : ∀ {s t ws}, s.loadProgram ws = .ok t → R s t) (hpush : ∀ {s t v}, s.pushInput v = .ok t → R s t)
include hload hpush

/-- The induction over commands: what a step, a load and a push keep, every sequence of commands keeps. -/
theorem State.performAll_rel (s : State) (cs : List HostCommand) : R s (s.performAll cs) := by
  induction cs generalizing s with
  | nil => exact hrefl s
  | cons c cs ih =>
    have hfirst : R s (s.perform c).1 := by
      rcases s.perform_fst_cases c with h | ⟨ws, -, h⟩ | ⟨v, -, h⟩ | ⟨-, k, h⟩
      · rw [h]; exact hrefl s
      · exact hload h
      · exact hpush h
      · rw [h]; exact s.stepTimes_rel hrefl htrans hstep k
    exact htrans hfirst (ih (s.perform c).1)

end

/-! ### The well-formed state (10_state R35) -/

theorem exec_next_wf {i : Instr} {s t : State} (hs : s.wf) (h : exec i s = .next t) : t.wf := by
  obtain ⟨hmem, hlen⟩ := hs
  rcases exec_next_cases h with ⟨a, v, rfl⟩ | ⟨-, rfl⟩ | ⟨a, v, q, hq, rfl⟩ | ⟨v, rfl⟩ | ⟨j, v, -, hj, rfl⟩ | ⟨p, rfl⟩ |
    ⟨-, rfl⟩
  case inr.inr.inl => exact ⟨hmem, by rw [hq, List.length_cons] at hlen; exact Nat.le_of_succ_le hlen⟩
  case inr.inr.inr.inr.inl => exact ⟨Memory.wf_set hmem hj v, hlen⟩
  all_goals exact ⟨hmem, hlen⟩

theorem step_next_wf {s t : State} (hs : s.wf) (h : step s = .next t) : t.wf := by
  rcases step_next_nextInstr h with ⟨-, rfl⟩ | ⟨i, -, he⟩
  · exact hs
  · exact exec_next_wf hs he

theorem State.loadProgram_wf {s t : State} {ws : List Word} (hs : s.wf) (h : s.loadProgram ws = .ok t) : t.wf := by
  obtain ⟨hws, rfl⟩ := (s.loadProgram_ok_iff t ws).1 h
  exact ⟨Memory.wf_install hs.1 ws (by omega), hs.2⟩

/-- A push that succeeds leaves the queue within its capacity (45_engine R162). -/
theorem State.pushInput_wf {s t : State} {v : Word} (hs : s.wf) (h : s.pushInput v = .ok t) : t.wf := by
  obtain ⟨hmem, hlen⟩ := hs
  obtain ⟨hne, rfl⟩ := (s.pushInput_ok_iff t v).1 h
  refine ⟨hmem, ?_⟩
  rw [List.length_append, List.length_singleton]
  omega

/-- Settles O17: of the seven things an instruction can do, only a pop and a store touch the queue or the memory. -/
theorem stepKeepsWellFormed : Obligations.StepKeepsWellFormed :=
  fun _ _ hs h => step_next_wf hs h

/-- Settles O18, by the induction over commands. -/
theorem commandsKeepWellFormed : Obligations.CommandsKeepWellFormed := fun s cs =>
  State.performAll_rel (R := fun s t => s.wf → t.wf) (fun _ hs => hs) (fun hst htu hs => htu (hst hs))
    (fun h hs => step_next_wf hs h) (fun h hs => State.loadProgram_wf hs h) (fun h hs => State.pushInput_wf hs h) s cs

/-! ### BLOCKED (10_state R28) -/

/-- Every instruction but `lw` completes and clears BLOCKED (D4). -/
theorem exec_next_blocked_of_ne_lw {i : Instr} {s t : State} (hi : ¬ ∃ a b simm, i = .lw a b simm)
    (h : exec i s = .next t) : t.blocked = false := by
  cases i with
  | lw a b simm => exact absurd ⟨a, b, simm, rfl⟩ hi
  | sw a b simm => rcases execSw_next h with ⟨-, rfl⟩ | ⟨-, -, rfl⟩ <;> rfl
  | add | addi | nand | lui | beq | jalr | hlt => cases h; rfl

/-- An `lw` sets BLOCKED exactly when it finds the queue empty at the input port (43_load_store_io R130). -/
theorem execLw_next_blocked_iff {a b : RegNum} {simm : Word} {s t : State} (h : execLw a b simm s = .next t) :
    t.blocked = true ↔ s.effectiveAddress b simm = portAddr ∧ s.inq = [] := by
  rcases execLw_next h with ⟨hea, hq, rfl⟩ | ⟨-, v, q, hq, rfl⟩ | ⟨hea, v, -, rfl⟩
  · simp [hea, hq]
  · simp [hq]
  · simp [hea]

/-- Settles O31, by whether the instruction is an `lw`. -/
theorem blockedMeansWaitingForInput : Obligations.BlockedMeansWaitingForInput := by
  intro i s t h
  by_cases hi : ∃ a b simm, i = .lw a b simm
  · obtain ⟨a, b, simm, rfl⟩ := hi
    rw [execLw_next_blocked_iff h]
    constructor
    · rintro ⟨hea, hq⟩
      exact ⟨a, b, simm, rfl, hea, hq⟩
    · rintro ⟨_, _, _, hlw, hea, hq⟩
      cases hlw
      exact ⟨hea, hq⟩
  · rw [exec_next_blocked_of_ne_lw hi h]
    exact iff_of_false Bool.false_ne_true fun ⟨a, b, simm, hlw, _⟩ => hi ⟨a, b, simm, hlw⟩

/-! ### HALT (10_state R27) -/

/-- The decoder answers the row `jalr` only for a clear halt bit (30_encoding R71). -/
theorem haltBit_of_decode_jalr {bits : Word} {a b : RegNum} {simm : Word} (h : decode bits = .ok (.jalr a b simm)) :
    haltBit simm = false := by
  unfold decode at h
  cases hv : decodeVariant bits with
  | error r => simp [hv, Except.map] at h
  | ok v =>
    rw [hv] at h
    cases v with
    | jalr a' b' simm' =>
      cases hb : simm'.getLsbD 0 with
      | true => simp [Except.map, Instr.ofVariant, hb] at h
      | false =>
        simp only [Except.map, Instr.ofVariant, hb] at h
        cases h
        exact hb
    | add | nand | lui | addi | sw | lw | beq => cases h

/-- A step leaves HALT as it was, or runs an `hlt` (44_control R142). -/
theorem step_next_halt_cases {s t : State} (h : step s = .next t) :
    t.halt = s.halt ∨ ∃ a b simm, s.nextInstr = some (.hlt a b simm) := by
  rcases step_next_nextInstr h with ⟨-, rfl⟩ | ⟨i, hi, he⟩
  · exact .inl rfl
  rcases exec_next_cases he with ⟨a, v, rfl⟩ | ⟨-, rfl⟩ | ⟨a, v, q, -, rfl⟩ | ⟨v, rfl⟩ | ⟨j, v, -, -, rfl⟩ | ⟨p, rfl⟩ |
    ⟨⟨a, b, simm, hhlt⟩, -⟩
  case inr.inr.inr.inr.inr.inr =>
    rcases hhlt with rfl | ⟨rfl, hb⟩
    · exact .inr ⟨a, b, simm, hi⟩
    · obtain ⟨-, bits, -, hd⟩ := (s.nextInstr_eq_some_iff _).1 hi
      rw [haltBit_of_decode_jalr hd] at hb
      cases hb
  all_goals exact .inl rfl

/-- Steps do not clear HALT (D3). -/
theorem State.stepTimes_halt {s : State} (h : s.halt = true) (n : Nat) : (s.stepTimes n).halt = true :=
  State.stepTimes_rel (R := fun s t => s.halt = true → t.halt = true) (fun _ h => h) (fun hst htu h => htu (hst h))
    (fun {s t} hnext hs => by rw [step_of_halt hs] at hnext; cases hnext; exact hs) s n h

/-- All a command can do to HALT: leave it as it was, clear it by a load, or run a number of steps. -/
theorem State.perform_halt_cases (s : State) (c : HostCommand) :
    (s.perform c).1.halt = s.halt ∨ (c.isLoad = true ∧ (s.perform c).1.halt = false) ∨
    (c.executes = true ∧ ∃ k, (s.perform c).1 = s.stepTimes k) := by
  rcases s.perform_fst_cases c with h | ⟨ws, rfl, h⟩ | ⟨v, -, h⟩ | h
  · exact .inl (by rw [h])
  · obtain ⟨-, h⟩ := (s.loadProgram_ok_iff _ ws).1 h
    exact .inr (.inl ⟨rfl, by rw [h]⟩)
  · obtain ⟨-, h⟩ := (s.pushInput_ok_iff _ v).1 h
    exact .inl (by rw [h])
  · exact .inr (.inr h)

/-- Settles O40, clause by clause: what a command and a step can do to HALT. -/
theorem haltFlagWriters : Obligations.HaltFlagWriters := by
  intro s c
  refine ⟨fun hset hclear => ?_, fun hclear hset => ?_, fun hclear hset => ?_⟩
  · rcases s.perform_halt_cases c with h | ⟨-, h⟩ | ⟨hc, -⟩
    · simp [h, hclear] at hset
    · simp [h] at hset
    · exact hc
  · rcases s.stepCommand_fst_cases with h | h
    · rcases step_next_halt_cases h with heq | hhlt
      · simp [heq, hclear] at hset
      · exact hhlt
    · simp [h, hclear] at hset
  · rcases s.perform_halt_cases c with h | ⟨hc, -⟩ | ⟨-, k, h⟩
    · simp [h, hset] at hclear
    · exact hc
    · simp [h, State.stepTimes_halt hset] at hclear

/-! ### The output log (10_state R33) -/

/-- The meaning `f` takes `s` to `t` without reading the output log: it appends some `d` to the log of `s`, and does the same
with any other log in its place. -/
def BlindToLog (f : State → Result) (s t : State) : Prop :=
  ∃ d, t.out = s.out ++ d ∧ ∀ o, f { s with out := o } = .next { t with out := o ++ d }

theorem BlindToLog.of_out_eq {f : State → Result} {s t : State} (hout : t.out = s.out)
    (h : ∀ o, f { s with out := o } = .next { t with out := o }) : BlindToLog f s t :=
  ⟨[], by simp [hout], fun o => by simp [h o]⟩

theorem State.haltOrNothing_blindToLog {s t : State} {simm : Word} (h : s.haltOrNothing simm = .next t) :
    BlindToLog (fun s => s.haltOrNothing simm) s t := by
  rw [State.haltOrNothing_eq] at h
  cases h
  exact .of_out_eq rfl fun o => State.haltOrNothing_eq { s with out := o } simm

/-- No instruction reads the log, and only an `sw` at the output port appends to it (20_memory R48). -/
theorem exec_blindToLog {i : Instr} {s t : State} (h : exec i s = .next t) : BlindToLog (exec i) s t := by
  cases i with
  | lw a b simm =>
    rcases execLw_next h with ⟨hea, hq, rfl⟩ | ⟨hea, v, q, hq, rfl⟩ | ⟨hea, v, hm, rfl⟩
    · exact .of_out_eq rfl fun o => execLw_port_empty (s := { s with out := o }) hea hq
    · exact .of_out_eq rfl fun o => execLw_port_cons (s := { s with out := o }) hea hq
    · exact .of_out_eq rfl fun o => execLw_memory (s := { s with out := o }) hea hm
  | sw a b simm =>
    rcases execSw_next h with ⟨hea, rfl⟩ | ⟨hea, ho, rfl⟩
    · exact ⟨[s.reg a], rfl, fun o => execSw_port (s := { s with out := o }) hea⟩
    · exact .of_out_eq rfl fun o => execSw_memory (s := { s with out := o }) hea ho
  | jalr a b simm => exact State.haltOrNothing_blindToLog h
  | hlt a b simm => exact State.haltOrNothing_blindToLog h
  | add | addi | nand | lui | beq => cases h; exact .of_out_eq rfl fun _ => rfl

/-- No step reads the log: what it fetches and decodes does not depend on it. -/
theorem step_blindToLog {s t : State} (h : step s = .next t) : BlindToLog step s t := by
  rcases step_next_nextInstr h with ⟨hh, rfl⟩ | ⟨i, hi, he⟩
  · exact .of_out_eq rfl fun _ => step_of_halt hh
  · obtain ⟨d, hd, hany⟩ := exec_blindToLog he
    exact ⟨d, hd, fun o => (step_of_nextInstr (s := { s with out := o }) hi).trans (hany o)⟩

theorem step_next_out_prefix {s t : State} (h : step s = .next t) : s.out <+: t.out := by
  obtain ⟨d, hd, -⟩ := step_blindToLog h
  exact ⟨d, hd.symm⟩

/-- Settles O41, by the induction over commands: a load and a push leave the log as it was (D9). -/
theorem outputLogOnlyGrows : Obligations.OutputLogOnlyGrows := by
  refine State.performAll_rel (R := fun s t => s.out <+: t.out) (fun s => List.prefix_rfl) List.IsPrefix.trans
    step_next_out_prefix (fun {s t ws} h => ?_) (fun {s t v} h => ?_)
  · obtain ⟨-, rfl⟩ := (s.loadProgram_ok_iff t ws).1 h
    exact List.prefix_rfl
  · obtain ⟨-, rfl⟩ := (s.pushInput_ok_iff t v).1 h
    exact List.prefix_rfl

/-- Settles O48: a step is blind to the log. -/
theorem outputLogIsNotRead : Obligations.OutputLogIsNotRead := by
  intro s t o h
  obtain ⟨d, hd, hany⟩ := step_blindToLog h
  exact ⟨d, hd, hany o⟩

/-! ### The parity of the pc (10_state R26) -/

theorem isOdd_add (u v : Word) : isOdd (u + v) = (isOdd u ^^ isOdd v) := by
  unfold isOdd
  rw [BitVec.getLsbD_add (by decide), BitVec.carry_zero, Bool.xor_false]

/-- Going on to the next instruction keeps the parity of the pc (10_state R25). -/
@[simp] theorem State.isOdd_nextPC (s : State) : isOdd s.nextPC = isOdd s.pc :=
  (isOdd_add s.pc wordSize).trans (Bool.xor_false _)

/-- Every instruction but `beq` advances the pc, or leaves it where it was: the blocked `lw`. -/
theorem exec_next_pc_of_ne_beq {i : Instr} {s t : State} (hi : ¬ ∃ a b simm, i = .beq a b simm)
    (h : exec i s = .next t) : t.pc = s.nextPC ∨ t.pc = s.pc := by
  cases i with
  | beq a b simm => exact absurd ⟨a, b, simm, rfl⟩ hi
  | lw a b simm =>
    rcases execLw_next h with ⟨-, -, rfl⟩ | ⟨-, v, q, -, rfl⟩ | ⟨-, v, -, rfl⟩
    · exact .inr rfl
    · exact .inl rfl
    · exact .inl rfl
  | sw a b simm => rcases execSw_next h with ⟨-, rfl⟩ | ⟨-, -, rfl⟩ <;> exact .inl rfl
  | add | addi | nand | lui | jalr | hlt => cases h; exact .inl rfl

/-- From an even pc a `beq` leaves an odd one exactly when it is taken with an odd offset (44_control R141, D5). -/
theorem execBeq_next_pc_odd_iff {a b : RegNum} {simm : Word} {s t : State} (hpc : isOdd s.pc = false)
    (h : execBeq a b simm s = .next t) : isOdd t.pc = true ↔ s.reg a = s.reg b ∧ isOdd simm = true := by
  cases h
  by_cases hab : s.reg a = s.reg b
  · simp [hab, State.branchTarget, isOdd_add, hpc]
  · simp [hab, hpc]

/-- From an even pc a step leaves an odd one exactly when it runs such a `beq`; a halted machine stays where it is. -/
theorem step_next_pc_odd_iff {s t : State} (hpc : isOdd s.pc = false) (h : step s = .next t) :
    isOdd t.pc = true ↔
      ∃ a b simm, s.nextInstr = some (.beq a b simm) ∧ s.reg a = s.reg b ∧ isOdd simm = true := by
  rcases step_next_nextInstr h with ⟨hh, rfl⟩ | ⟨i, hi, he⟩
  · simp [hpc, State.nextInstr_of_halt hh]
  by_cases hbeq : ∃ a b simm, i = .beq a b simm
  · obtain ⟨a, b, simm, rfl⟩ := hbeq
    rw [execBeq_next_pc_odd_iff hpc he, hi]
    constructor
    · rintro ⟨hab, hodd⟩
      exact ⟨a, b, simm, rfl, hab, hodd⟩
    · rintro ⟨_, _, _, hsame, hab, hodd⟩
      cases hsame
      exact ⟨hab, hodd⟩
  · have heven : isOdd t.pc = false := by
      rcases exec_next_pc_of_ne_beq hbeq he with hp | hp <;> simp [hp, hpc]
    rw [heven, hi]
    exact iff_of_false Bool.false_ne_true fun ⟨a, b, simm, hsome, _⟩ => hbeq ⟨a, b, simm, Option.some.inj hsome⟩

/-- Settles O43: only a `beq` moves the pc by anything but 0 or 2. -/
theorem pcParityAfterStep : Obligations.PcParityAfterStep :=
  fun _ _ hpc h => step_next_pc_odd_iff hpc h

/-! ### Register 0 and the commands that leave the core alone -/

theorem State.setReg_zero (s : State) (v : Word) : s.setReg 0 v = s := rfl

/-- Settles O21, from the register laws and the pop of `lw`. -/
theorem registerZeroIsHardwired : Obligations.RegisterZeroIsHardwired := by
  refine ⟨fun s => ⟨s.reg_zero, rfl⟩, State.setReg_zero, fun s a r v ha => ?_, fun s b v q hb hq => ?_⟩
  · rw [State.reg_setReg]
    exact if_congr (and_iff_left ha) rfl rfl
  · have hea : s.effectiveAddress b 0 = portAddr := by simp [State.effectiveAddress, hb]
    exact ⟨_, execLw_port_cons hea hq, fun r => rfl, rfl, rfl⟩

/-- Settles O55: of the four things a command can do, a load and an execution are excluded. -/
theorem otherCommandsLeaveTheCoreAlone : Obligations.OtherCommandsLeaveTheCoreAlone := by
  intro s c hload hexec
  rcases s.perform_fst_cases c with h | ⟨ws, rfl, -⟩ | ⟨v, rfl, h⟩ | ⟨hc, -⟩
  · rw [h]
    exact ⟨rfl, fun _ => rfl⟩
  · cases hload
  · obtain ⟨-, h⟩ := (s.pushInput_ok_iff _ v).1 h
    rw [h]
    exact ⟨rfl, fun hne => absurd rfl (hne v)⟩
  · rw [hc] at hexec
    cases hexec

end Sys2Proof.Machine
end

section
/-! PROOFS. The statements about memory and the input queue (20_memory). -/

namespace Sys2Proof.Machine

/-! ### Reads and writes by address -/

/-- What a store of one word changes: the word at its even address alone (20_memory R44). -/
theorem memWritten_of_mem_eq_set {s t : State} {ea v : Word} (ho : isOdd ea = false)
    (h : t.mem = Memory.set s.mem (wordIndex ea) v) : MemWritten s t ea v := fun addr => by
  rw [h]
  exact memRead_set s.mem ea addr v ho

/-- An `sw` that gives a next state at an address other than the port's has stored its register there
(43_load_store_io R131). -/
theorem execSw_next_memWritten {a b : RegNum} {simm : Word} {s t : State} (h : execSw a b simm s = .next t)
    (hea : s.effectiveAddress b simm ≠ portAddr) : MemWritten s t (s.effectiveAddress b simm) (s.reg a) := by
  rcases execSw_next h with ⟨hport, -⟩ | ⟨-, ho, rfl⟩
  · exact absurd hport hea
  · exact memWritten_of_mem_eq_set ho rfl

/-- Settles O20: the word index of an address is half of it, and a write replaces the word at that index alone. -/
theorem memoryReadAndWrite : Obligations.MemoryReadAndWrite := by
  intro m addr v
  refine ⟨fun ho => ⟨memRead_odd ho m, memWrite_odd ho m v⟩, fun ho => ?_⟩
  rw [← wordIndex_eq]
  exact ⟨memRead_even ho m, Memory.set m (wordIndex addr) v, memWrite_even ho m v,
    fun j => Memory.get_set m (wordIndex addr) j v, fun b => memRead_set m addr b v ho⟩

/-- Settles O44: a fetch is a memory read at the pc (20_memory R56). -/
theorem storeIsSeenByFetch : Obligations.StoreIsSeenByFetch := by
  intro a b simm s t u h hea hmem
  unfold State.fetch
  rw [hmem]
  exact execSw_next_memWritten h hea u.pc

/-! ### The canonical form (log entry 1) -/

/-- The even byte address of a word index (20_memory R40). -/
def byteAddr (i : Nat) : Word := BitVec.ofNat 16 (2 * i)

theorem isOdd_byteAddr (i : Nat) : isOdd (byteAddr i) = false := by
  rw [isOdd, byteAddr, BitVec.getLsbD_ofNat, Nat.testBit_zero]
  simp

theorem wordIndex_byteAddr {i : Nat} (h : i < memWords) : wordIndex (byteAddr i) = i := by
  rw [wordIndex_eq, byteAddr, BitVec.toNat_ofNat]
  unfold memWords at h
  omega

theorem memRead_byteAddr {i : Nat} (h : i < memWords) (m : Memory) :
    memRead m (byteAddr i) = .ok (Memory.get m i) := by
  rw [memRead_even (isOdd_byteAddr i), wordIndex_byteAddr h]

/-- An index that reads as anything but the unlisted word is listed. -/
theorem Memory.mem_of_get_ne {m : Memory} (hs : m.Pairwise (fun p q => p.1 < q.1)) {i : Nat}
    (h : Memory.get m i ≠ unlistedWord) : (i, Memory.get m i) ∈ m := by
  obtain ⟨p, hp, rfl⟩ : ∃ p ∈ m, p.1 = i := by
    by_contra hnone
    exact h (Memory.get_of_forall_ne fun p hp hpi => hnone ⟨p, hp, hpi⟩)
  rw [Memory.get_of_mem hs hp]
  exact hp

/-- The entries of a canonical memory are its words below 32768 that are not the unlisted word. -/
theorem Memory.mem_iff_get {m : Memory} (h : m.wf) (p : Nat × Word) :
    p ∈ m ↔ p.1 < memWords ∧ Memory.get m p.1 = p.2 ∧ p.2 ≠ unlistedWord := by
  obtain ⟨hs, hentry⟩ := h
  constructor
  · intro hp
    obtain ⟨hlt, hne⟩ := hentry p hp
    exact ⟨hlt, Memory.get_of_mem hs hp, hne⟩
  · rintro ⟨-, hget, hne⟩
    have hmem : (p.1, Memory.get m p.1) ∈ m := Memory.mem_of_get_ne hs (by rwa [hget])
    rwa [hget] at hmem

/-- Settles O19: the reads determine the entries, and the rising order determines the list of them. -/
theorem canonicalMemoryIsUnique : Obligations.CanonicalMemoryIsUnique := by
  intro m m' hm hm' hread
  have hget : ∀ i < memWords, Memory.get m i = Memory.get m' i := fun i hi =>
    Except.ok.inj ((memRead_byteAddr hi m).symm.trans ((hread (byteAddr i)).trans (memRead_byteAddr hi m')))
  have hmem : ∀ p, p ∈ m ↔ p ∈ m' := fun p => by
    rw [Memory.mem_iff_get hm, Memory.mem_iff_get hm']
    exact and_congr_right fun hi => by rw [hget p.1 hi]
  have : Std.Asymm (fun p q : Nat × Word => p.1 < q.1) := ⟨fun _ _ => Nat.lt_asymm⟩
  exact hm.1.eq_of_mem_iff hm'.1 hmem

/-! ### The input queue (20_memory R47) -/

/-- A push into a queue with room (45_engine R162). -/
theorem State.perform_pushInput {s : State} (v : Word) (h : s.inq.length < inqCap) :
    s.perform (.pushInput v) = ({ s with inq := s.inq ++ [v] }, .done) := by
  have hok : s.pushInput v = .ok { s with inq := s.inq ++ [v] } := (s.pushInput_ok_iff _ v).2 ⟨Nat.ne_of_lt h, rfl⟩
  simp [State.perform, hok, State.orUnchanged]

/-- Pushes that fit put their values behind the queue, in their order. -/
theorem State.performAll_pushInput {s : State} {vs : List Word} (h : s.inq.length + vs.length ≤ inqCap) :
    s.performAll (vs.map .pushInput) = { s with inq := s.inq ++ vs } := by
  induction vs generalizing s with
  | nil => simp [State.performAll]
  | cons v vs ih =>
    rw [List.length_cons] at h
    rw [List.map_cons, State.performAll, State.perform_pushInput v (by omega), ih (by simp; omega)]
    simp

/-- A step that gives a next state, as a command (45_engine R156). -/
theorem State.stepCommand_of_next {s t : State} (h : step s = .next t) :
    s.stepCommand = (t, StepResult.ofOutcome (.next t)) := by
  simp [State.stepCommand, h, State.afterOutcome]

/-- A next state with both flags clear is the answer `Continued` (45_engine R156). -/
theorem StepResult.ofOutcome_next_of_clear {t : State} (hh : t.halt = false) (hb : t.blocked = false) :
    StepResult.ofOutcome (.next t) = .continued := by
  simp [StepResult.ofOutcome, hh, hb]

/-- What a register write does to the registers, the hard-wired one included (10_state R22). -/
theorem regWritten_of_x_eq_write {s t : State} {a : RegNum} {v : Word} (h : t.x = s.x.write a v) :
    RegWritten s t a v := by
  have hreg : ∀ r, t.reg r = if r = a ∧ a ≠ 0 then v else s.reg r := fun r => by
    rw [State.reg, h]
    exact s.x.read_write a r v
  refine ⟨fun ha => by rw [hreg, if_pos ⟨rfl, ha⟩], fun r hr => ?_⟩
  rw [hreg, if_neg]
  rintro ⟨rfl, ha⟩
  exact hr.elim (fun hne => hne rfl) ha

/-- The step of an `lw` at the input port with a value waiting (43_load_store_io R130). -/
theorem State.stepCommand_lw_port_cons {s : State} {a b : RegNum} {simm v : Word} {q : List Word}
    (hi : s.nextInstr = some (.lw a b simm)) (hea : s.effectiveAddress b simm = portAddr) (hq : s.inq = v :: q) :
    s.stepCommand = ((({ s with inq := q } : State).setReg a v).complete s.nextPC, .continued) := by
  obtain ⟨hh, -⟩ := (s.nextInstr_eq_some_iff _).1 hi
  have hstep := (step_of_nextInstr hi).trans (execLw_port_cons hea hq)
  exact (State.stepCommand_of_next hstep).trans (congrArg _ (StepResult.ofOutcome_next_of_clear hh rfl))

/-- Settles O46: pushes append at the end, the `lw` takes from the head. A push leaves the next instruction as it was. -/
theorem inputQueueIsFifo : Obligations.InputQueueIsFifo := by
  intro s vs v a b simm hempty hlen hi hea
  have hpush : s.performAll ((v :: vs).map .pushInput) = { s with inq := v :: vs } := by
    rw [State.performAll_pushInput (by simpa [hempty] using hlen), hempty, List.nil_append]
  have hstep := State.stepCommand_lw_port_cons (s := { s with inq := v :: vs }) hi hea rfl
  refine ⟨_, hpush, rfl, ?_⟩
  rw [hstep]
  exact ⟨rfl, regWritten_of_x_eq_write rfl, rfl⟩

end Sys2Proof.Machine
end

section
/-! PROOFS. The statements about the decoder and the encoder (30_encoding). The codec and the encoder are brought to
`BitVec`'s own fields and concatenations once; the decoder is then one table of rows, and the statements are read off it. -/

namespace Sys2Proof.Machine

/-! ### The codec as `BitVec`'s fields (40_bitfield_codec) -/

theorem getLsbD_fieldMask (width i : Nat) :
    (BitVec.ofNat 16 (2 ^ width - 1)).getLsbD i = (decide (i < 16) && decide (i < width)) := by
  rw [BitVec.getLsbD_ofNat, Nat.testBit_two_pow_sub_one]

/-- `extractField` bit by bit (40_bitfield_codec R90). -/
theorem getLsbD_extractField (word : Word) (startBit width : Nat) (h : startBit + width ≤ 16) (i : Nat) :
    (extractField word startBit width h).getLsbD i = (decide (i < width) && word.getLsbD (startBit + i)) := by
  rw [extractField, BitVec.getLsbD_and, BitVec.getLsbD_ushiftRight, getLsbD_fieldMask, Bool.and_comm]
  by_cases hi : i < 16
  · simp [hi]
  · rw [word.getLsbD_of_ge (startBit + i) (by omega), Bool.and_false, Bool.and_false]

theorem extractField_eq_extractLsb' (word : Word) (startBit width : Nat) (h : startBit + width ≤ 16) :
    extractField word startBit width h = (word.extractLsb' startBit width).setWidth 16 := by
  refine BitVec.eq_of_getLsbD_eq fun i hi => ?_
  rw [getLsbD_extractField, BitVec.getLsbD_setWidth, BitVec.getLsbD_extractLsb', decide_eq_true hi, Bool.true_and]

/-- `signExtend` bit by bit: the bits above the sign bit are copies of it (40_bitfield_codec R92). -/
theorem getLsbD_signExtend (value : Word) (s : Nat) (h : s ≤ 15) {i : Nat} (hi : i < 16) :
    (signExtend value s h).getLsbD i = if i < s + 1 then value.getLsbD i else value.getLsbD s := by
  have hlow : (value &&& BitVec.ofNat 16 (2 ^ (s + 1) - 1)).getLsbD i =
      (decide (i < s + 1) && value.getLsbD i) := by
    rw [BitVec.getLsbD_and, getLsbD_fieldMask, decide_eq_true hi, Bool.true_and, Bool.and_comm]
  have hhigh : (0xFFFF#16 <<< (s + 1)).getLsbD i = !decide (i < s + 1) := by
    have hones : 0xFFFF#16 = BitVec.allOnes 16 := rfl
    have hsub : i - (s + 1) < 16 := by omega
    simp only [hones, BitVec.getLsbD_shiftLeft, BitVec.getLsbD_allOnes, hi, hsub, decide_true, Bool.true_and,
      Bool.and_true]
  unfold signExtend
  cases hs : value.getLsbD s with
  | false =>
    rw [if_neg Bool.false_ne_true, hlow]
    by_cases his : i < s + 1 <;> simp [his]
  | true =>
    rw [if_pos rfl, BitVec.getLsbD_or, hlow, hhigh]
    by_cases his : i < s + 1 <;> simp [his]

theorem signExtend_eq_signExtend_extractLsb' (value : Word) (s : Nat) (h : s ≤ 15) :
    signExtend value s h = (value.extractLsb' 0 (s + 1)).signExtend 16 := by
  refine BitVec.eq_of_getLsbD_eq fun i hi => ?_
  rw [getLsbD_signExtend value s h hi, BitVec.getLsbD_signExtend, BitVec.msb_eq_getLsbD_last]
  by_cases his : i < s + 1 <;> simp [hi, his]

/-! ### The fields of a word (30_encoding R61) -/

theorem opcodeField_eq (w : Word) : opcodeField w = (w.extractLsb' 13 3).setWidth 16 :=
  extractField_eq_extractLsb' w 13 3 _

theorem zeroField_eq (w : Word) : zeroField w = (w.extractLsb' 3 4).setWidth 16 := extractField_eq_extractLsb' w 3 4 _

theorem imm7Field_eq (w : Word) : imm7Field w = (w.extractLsb' 0 7).setWidth 16 := extractField_eq_extractLsb' w 0 7 _

theorem imm10Field_eq (w : Word) : imm10Field w = (w.extractLsb' 0 10).setWidth 16 :=
  extractField_eq_extractLsb' w 0 10 _

theorem regAField_eq (w : Word) : regAField w = w.extractLsb' 10 3 := by
  rw [regAField, extractField_eq_extractLsb', BitVec.setWidth_setWidth_of_le _ (by decide), BitVec.setWidth_eq]

theorem regBField_eq (w : Word) : regBField w = w.extractLsb' 7 3 := by
  rw [regBField, extractField_eq_extractLsb', BitVec.setWidth_setWidth_of_le _ (by decide), BitVec.setWidth_eq]

theorem regCField_eq (w : Word) : regCField w = w.extractLsb' 0 3 := by
  rw [regCField, extractField_eq_extractLsb', BitVec.setWidth_setWidth_of_le _ (by decide), BitVec.setWidth_eq]

theorem simmField_eq (w : Word) : simmField w = (w.extractLsb' 0 7).signExtend 16 := by
  rw [simmField, imm7Field_eq, signExtend_eq_signExtend_extractLsb', BitVec.extractLsb'_setWidth_of_le (by decide),
    BitVec.extractLsb'_eq_self]

/-! ### The three formats (30_encoding R62 to R64): the fields of a word of a format, and a word as its fields -/

@[simp] theorem wordRRR_fields (op a b c : RegNum) :
    (wordRRR op a b c).extractLsb' 13 3 = op ∧ (wordRRR op a b c).extractLsb' 10 3 = a ∧
      (wordRRR op a b c).extractLsb' 7 3 = b ∧ (wordRRR op a b c).extractLsb' 3 4 = 0#4 ∧
      (wordRRR op a b c).extractLsb' 0 3 = c := by
  simp (disch := decide) only [wordRRR, BitVec.extractLsb'_setWidth_of_le, BitVec.extractLsb'_append_eq_of_le,
    BitVec.extractLsb'_append_eq_of_add_le, BitVec.extractLsb'_eq_self, Nat.reduceSub, and_self]

@[simp] theorem wordRRI_fields (op a b : RegNum) (imm : BitVec 7) :
    (wordRRI op a b imm).extractLsb' 13 3 = op ∧ (wordRRI op a b imm).extractLsb' 10 3 = a ∧
      (wordRRI op a b imm).extractLsb' 7 3 = b ∧ (wordRRI op a b imm).extractLsb' 0 7 = imm := by
  simp (disch := decide) only [wordRRI, BitVec.extractLsb'_setWidth_of_le, BitVec.extractLsb'_append_eq_of_le,
    BitVec.extractLsb'_append_eq_of_add_le, BitVec.extractLsb'_eq_self, Nat.reduceSub, and_self]

@[simp] theorem wordRI_fields (op a : RegNum) (imm : BitVec 10) :
    (wordRI op a imm).extractLsb' 13 3 = op ∧ (wordRI op a imm).extractLsb' 10 3 = a ∧
      (wordRI op a imm).extractLsb' 0 10 = imm := by
  simp (disch := decide) only [wordRI, BitVec.extractLsb'_setWidth_of_le, BitVec.extractLsb'_append_eq_of_le,
    BitVec.extractLsb'_append_eq_of_add_le, BitVec.extractLsb'_eq_self, Nat.reduceSub, and_self]

theorem wordRRI_of_fields (w : Word) :
    wordRRI (w.extractLsb' 13 3) (w.extractLsb' 10 3) (w.extractLsb' 7 3) (w.extractLsb' 0 7) = w := by
  rw [wordRRI, BitVec.extractLsb'_append_extractLsb'_eq_extractLsb' (show 13 = 10 + 3 from rfl),
    BitVec.extractLsb'_append_extractLsb'_eq_extractLsb' (show 10 = 7 + 3 from rfl),
    BitVec.extractLsb'_append_extractLsb'_eq_extractLsb' (show 7 = 0 + 7 from rfl),
    BitVec.setWidth_extractLsb'_of_le (by decide), BitVec.extractLsb'_eq_self]

theorem wordRRR_of_fields {w : Word} (hz : w.extractLsb' 3 4 = 0#4) :
    wordRRR (w.extractLsb' 13 3) (w.extractLsb' 10 3) (w.extractLsb' 7 3) (w.extractLsb' 0 3) = w := by
  rw [wordRRR, ← hz, BitVec.extractLsb'_append_extractLsb'_eq_extractLsb' (show 13 = 10 + 3 from rfl),
    BitVec.extractLsb'_append_extractLsb'_eq_extractLsb' (show 10 = 7 + 3 from rfl),
    BitVec.extractLsb'_append_extractLsb'_eq_extractLsb' (show 7 = 3 + 4 from rfl),
    BitVec.extractLsb'_append_extractLsb'_eq_extractLsb' (show 3 = 0 + 3 from rfl),
    BitVec.setWidth_extractLsb'_of_le (by decide), BitVec.extractLsb'_eq_self]

theorem wordRI_of_fields (w : Word) : wordRI (w.extractLsb' 13 3) (w.extractLsb' 10 3) (w.extractLsb' 0 10) = w := by
  rw [wordRI, BitVec.extractLsb'_append_extractLsb'_eq_extractLsb' (show 13 = 10 + 3 from rfl),
    BitVec.extractLsb'_append_extractLsb'_eq_extractLsb' (show 10 = 0 + 10 from rfl),
    BitVec.setWidth_extractLsb'_of_le (by decide), BitVec.extractLsb'_eq_self]

/-! ### Immediates (30_encoding R65, R66) -/

theorem and_fieldMask (imm : Word) (width : Nat) :
    imm &&& BitVec.ofNat 16 (2 ^ width - 1) = (imm.setWidth width).setWidth 16 := by
  refine BitVec.eq_of_getLsbD_eq fun i hi => ?_
  rw [BitVec.getLsbD_and, getLsbD_fieldMask, BitVec.getLsbD_setWidth, BitVec.getLsbD_setWidth, decide_eq_true hi,
    Bool.true_and, Bool.true_and, Bool.and_comm]

theorem setWidth_signExtend_of_le {v w : Nat} (h : w ≤ v) (x : BitVec w) : (x.signExtend v).setWidth w = x := by
  refine BitVec.eq_of_getLsbD_eq fun i hi => ?_
  rw [BitVec.getLsbD_setWidth, BitVec.getLsbD_signExtend, if_pos hi, decide_eq_true hi,
    decide_eq_true (Nat.lt_of_lt_of_le hi h), Bool.true_and, Bool.true_and]

theorem setWidth_ofInt {v w : Nat} (h : v ≤ w) (i : Int) : (BitVec.ofInt w i).setWidth v = BitVec.ofInt v i := by
  refine BitVec.eq_of_toInt_eq ?_
  rw [← BitVec.signExtend_eq_setWidth_of_le _ h, BitVec.toInt_signExtend, BitVec.toInt_ofInt, BitVec.toInt_ofInt,
    Nat.min_eq_left h]
  exact Int.bmod_bmod_of_dvd (Nat.pow_dvd_pow 2 h)

/-- The Words in the range of `simm` are the sign extensions of their low seven bits (41_decoder R101). -/
theorem simmInRange_iff (simm : Word) : SimmInRange simm ↔ (simm.setWidth 7).signExtend 16 = simm := by
  rw [← BitVec.toNat_inj, BitVec.toNat_signExtend, BitVec.msb_eq_decide, BitVec.toNat_setWidth, BitVec.toNat_setWidth]
  have := simm.isLt
  simp only [decide_eq_true_eq, SimmInRange]
  split <;> omega

/-- The Words in the range of `imm` are the zero extensions of their low ten bits (30_encoding R66). -/
theorem immInRange_iff (imm : Word) : ImmInRange imm ↔ (imm.setWidth 10).setWidth 16 = imm := by
  rw [← BitVec.toNat_inj, BitVec.toNat_setWidth, BitVec.toNat_setWidth]
  simp only [ImmInRange]
  omega

theorem simmInRange_signExtend (imm : BitVec 7) : SimmInRange (imm.signExtend 16) :=
  (simmInRange_iff _).2 (by rw [setWidth_signExtend_of_le (by decide)])

theorem immInRange_setWidth (imm : BitVec 10) : ImmInRange (imm.setWidth 16) := by
  have := imm.isLt
  rw [ImmInRange, BitVec.toNat_setWidth]
  omega

/-! ### The encoder's words as the fields side by side -/

theorem encodeRRI_eq (op a b : RegNum) (imm : Word) : encodeRRI op a b imm = wordRRI op a b (imm.setWidth 7) := by
  rw [encodeRRI, wordRRI, BitVec.setWidth_append_append_append_eq_shiftLeft_setWidth_or, ← and_fieldMask]
  rfl

theorem encodeRI_eq (op a : RegNum) (imm : Word) : encodeRI op a imm = wordRI op a (imm.setWidth 10) := by
  rw [encodeRI, wordRI, BitVec.setWidth_append_append_eq_shiftLeft_setWidth_or, ← and_fieldMask]
  rfl

theorem encodeRRR_eq (op a b c : RegNum) : encodeRRR op a b c = wordRRR op a b c := by
  have hpad : (0#4 ++ c).setWidth 16 = c.setWidth 16 := by revert c; decide
  rw [encodeRRR, wordRRR, BitVec.append_assoc, BitVec.setWidth_cast,
    BitVec.setWidth_append_append_append_eq_shiftLeft_setWidth_or, hpad]

/-! ### The decoder as a table of rows (30_encoding R67) -/

/-- The opcodes of format RRR, each with its variant. -/
inductive RowRRR : RegNum → (RegNum → RegNum → RegNum → Variant) → Prop where
  | add : RowRRR 0b000#3 .add
  | nand : RowRRR 0b010#3 .nand

/-- The opcodes of format RRI, each with its variant. -/
inductive RowRRI : RegNum → (RegNum → RegNum → Word → Variant) → Prop where
  | addi : RowRRI 0b001#3 .addi
  | lw : RowRRI 0b100#3 .lw
  | sw : RowRRI 0b101#3 .sw
  | beq : RowRRI 0b110#3 .beq
  | jalr : RowRRI 0b111#3 .jalr

/-- What a word decodes to, by the format its opcode selects; `decodeVariant_ok_iff` says that it is the decoder. -/
inductive DecodesTo (w : Word) : Variant → Prop where
  | rrr {mk} (row : RowRRR (w.extractLsb' 13 3) mk) (hz : w.extractLsb' 3 4 = 0#4) :
      DecodesTo w (mk (w.extractLsb' 10 3) (w.extractLsb' 7 3) (w.extractLsb' 0 3))
  | lui (hop : w.extractLsb' 13 3 = 0b011#3) : DecodesTo w (.lui (w.extractLsb' 10 3) ((w.extractLsb' 0 10).setWidth 16))
  | rri {mk} (row : RowRRI (w.extractLsb' 13 3) mk) :
      DecodesTo w (mk (w.extractLsb' 10 3) (w.extractLsb' 7 3) ((w.extractLsb' 0 7).signExtend 16))

/-- The list of opcodes is closed (30_encoding R67). -/
theorem opcode_cases (op : RegNum) : (∃ mk, RowRRR op mk) ∨ op = 0b011#3 ∨ ∃ mk, RowRRI op mk := by
  obtain rfl | rfl | rfl | rfl | rfl | rfl | rfl | rfl := regNum_cases op
  · exact .inl ⟨_, .add⟩
  · exact .inr (.inr ⟨_, .addi⟩)
  · exact .inl ⟨_, .nand⟩
  · exact .inr (.inl rfl)
  · exact .inr (.inr ⟨_, .lw⟩)
  · exact .inr (.inr ⟨_, .sw⟩)
  · exact .inr (.inr ⟨_, .beq⟩)
  · exact .inr (.inr ⟨_, .jalr⟩)

/-- The arms `Add` and `Nand` (41_decoder R111, R112). -/
theorem decodeVariant_of_rowRRR {w : Word} {op : RegNum} {mk : RegNum → RegNum → RegNum → Variant}
    (row : RowRRR op mk) (hop : w.extractLsb' 13 3 = op) (hz : w.extractLsb' 3 4 = 0#4) :
    decodeVariant w = .ok (mk (w.extractLsb' 10 3) (w.extractLsb' 7 3) (w.extractLsb' 0 3)) := by
  cases row <;>
    simp [decodeVariant, opcodeField_eq, zeroField_eq, regAField_eq, regBField_eq, regCField_eq, hop, hz]

/-- The register-register words that fail (41_decoder R113). -/
theorem decodeVariant_of_malformed {w : Word} {op : RegNum} {mk : RegNum → RegNum → RegNum → Variant}
    (row : RowRRR op mk) (hop : w.extractLsb' 13 3 = op) (hz : w.extractLsb' 3 4 ≠ 0#4) :
    decodeVariant w = .error (.malformedInstruction w) := by
  have hz' : (w.extractLsb' 3 4).setWidth 16 ≠ 0#16 := fun h => hz (by simpa using congrArg (BitVec.setWidth 4) h)
  cases row <;> simp [decodeVariant, opcodeField_eq, zeroField_eq, hop, hz']

/-- The arm `Lui` (41_decoder R105). -/
theorem decodeVariant_of_lui {w : Word} (hop : w.extractLsb' 13 3 = 0b011#3) :
    decodeVariant w = .ok (.lui (w.extractLsb' 10 3) ((w.extractLsb' 0 10).setWidth 16)) := by
  simp [decodeVariant, opcodeField_eq, regAField_eq, imm10Field_eq, hop]

/-- The arms with a signed immediate (41_decoder R106 to R110). -/
theorem decodeVariant_of_rowRRI {w : Word} {op : RegNum} {mk : RegNum → RegNum → Word → Variant}
    (row : RowRRI op mk) (hop : w.extractLsb' 13 3 = op) :
    decodeVariant w = .ok (mk (w.extractLsb' 10 3) (w.extractLsb' 7 3) ((w.extractLsb' 0 7).signExtend 16)) := by
  cases row <;> simp [decodeVariant, opcodeField_eq, regAField_eq, regBField_eq, simmField_eq, hop]

/-- All the decoder can answer when it does not fail (41_decoder R115). -/
theorem decodeVariant_ok_iff (w : Word) (v : Variant) : decodeVariant w = .ok v ↔ DecodesTo w v := by
  constructor
  · intro h
    rcases opcode_cases (w.extractLsb' 13 3) with ⟨mk, row⟩ | hop | ⟨mk, row⟩
    · by_cases hz : w.extractLsb' 3 4 = 0#4
      · cases (decodeVariant_of_rowRRR row rfl hz).symm.trans h
        exact .rrr row hz
      · cases (decodeVariant_of_malformed row rfl hz).symm.trans h
    · cases (decodeVariant_of_lui hop).symm.trans h
      exact .lui hop
    · cases (decodeVariant_of_rowRRI row rfl).symm.trans h
      exact .rri row
  · rintro (⟨row, hz⟩ | hop | row)
    · exact decodeVariant_of_rowRRR row rfl hz
    · exact decodeVariant_of_lui hop
    · exact decodeVariant_of_rowRRI row rfl

theorem decodeVariant_wordRRR {op : RegNum} {mk : RegNum → RegNum → RegNum → Variant} (row : RowRRR op mk)
    (a b c : RegNum) : decodeVariant (wordRRR op a b c) = .ok (mk a b c) := by
  simpa using decodeVariant_of_rowRRR (w := wordRRR op a b c) row

theorem decodeVariant_wordRI (a : RegNum) (imm : BitVec 10) :
    decodeVariant (wordRI 0b011#3 a imm) = .ok (.lui a (imm.setWidth 16)) := by
  simpa using decodeVariant_of_lui (w := wordRI 0b011#3 a imm)

theorem decodeVariant_wordRRI {op : RegNum} {mk : RegNum → RegNum → Word → Variant} (row : RowRRI op mk)
    (a b : RegNum) (imm : BitVec 7) : decodeVariant (wordRRI op a b imm) = .ok (mk a b (imm.signExtend 16)) := by
  simpa using decodeVariant_of_rowRRI (w := wordRRI op a b imm) row

/-! ### The encoder by the same rows -/

theorem encodeVariant_rowRRR {op : RegNum} {mk : RegNum → RegNum → RegNum → Variant} (row : RowRRR op mk)
    (a b c : RegNum) : encodeVariant (mk a b c) = wordRRR op a b c := by
  cases row <;> exact encodeRRR_eq _ a b c

theorem encodeVariant_lui (a : RegNum) (imm : Word) : encodeVariant (.lui a imm) = wordRI 0b011#3 a (imm.setWidth 10) :=
  encodeRI_eq 0b011#3 a imm

theorem encodeVariant_rowRRI {op : RegNum} {mk : RegNum → RegNum → Word → Variant} (row : RowRRI op mk)
    (a b : RegNum) (simm : Word) : encodeVariant (mk a b simm) = wordRRI op a b (simm.setWidth 7) := by
  cases row <;> exact encodeRRI_eq _ a b simm

/-- Re-encoding a decoded variant (30_encoding R84 (a)). -/
theorem DecodesTo.encodeVariant_eq {w : Word} {v : Variant} (h : DecodesTo w v) : encodeVariant v = w := by
  cases h with
  | rrr row hz => rw [encodeVariant_rowRRR row, wordRRR_of_fields hz]
  | lui hop =>
    rw [encodeVariant_lui, BitVec.setWidth_setWidth_of_le _ (by decide), BitVec.setWidth_eq, ← hop, wordRI_of_fields]
  | rri row => rw [encodeVariant_rowRRI row, setWidth_signExtend_of_le (by decide), wordRRI_of_fields]

/-- A signed immediate in range survives the encoding. -/
theorem decodeVariant_encodeVariant_rowRRI {op : RegNum} {mk : RegNum → RegNum → Word → Variant} (row : RowRRI op mk)
    (a b : RegNum) {simm : Word} (h : SimmInRange simm) :
    decodeVariant (encodeVariant (mk a b simm)) = .ok (mk a b simm) := by
  rw [encodeVariant_rowRRI row, decodeVariant_wordRRI row, (simmInRange_iff simm).1 h]

/-! ### Instructions and variants (log entry 4) -/

theorem Instr.ofVariant_jalr (a b : RegNum) (simm : Word) :
    Instr.ofVariant (.jalr a b simm) = if HaltBitSet simm then .hlt a b simm else .jalr a b simm := rfl

theorem Instr.variant_ofVariant (v : Variant) : (Instr.ofVariant v).variant = v := by
  cases v with
  | jalr a b simm => rw [Instr.ofVariant_jalr]; split <;> rfl
  | add | nand | lui | addi | sw | lw | beq => rfl

/-- The halt bit tells the two rows of a well-formed `Jalr` apart (30_encoding R71). -/
theorem Instr.ofVariant_variant {i : Instr} (h : i.WellFormed) : Instr.ofVariant i.variant = i := by
  cases i with
  | jalr a b simm =>
    obtain ⟨-, hb⟩ := of_decide_eq_true h
    exact if_neg hb
  | hlt a b simm =>
    obtain ⟨-, hb⟩ := of_decide_eq_true h
    exact if_pos hb
  | add | addi | nand | lui | lw | sw | beq => rfl

theorem decode_ok_iff (w : Word) (i : Instr) :
    decode w = .ok i ↔ ∃ v, decodeVariant w = .ok v ∧ Instr.ofVariant v = i := by
  unfold decode
  cases decodeVariant w <;> simp [Except.map]

theorem decode_of_decodeVariant {w : Word} {v : Variant} (h : decodeVariant w = .ok v) :
    decode w = .ok (Instr.ofVariant v) := (decode_ok_iff w _).2 ⟨v, h, rfl⟩

/-- The decoder delivers operands in range (41_decoder R101). -/
theorem DecodesTo.wellFormed {w : Word} {v : Variant} (h : DecodesTo w v) : (Instr.ofVariant v).WellFormed := by
  cases h with
  | rrr row hz => generalize w.extractLsb' 13 3 = op at row; cases row <;> rfl
  | lui hop => exact decide_eq_true (immInRange_setWidth _)
  | rri row =>
    have hs := simmInRange_signExtend (w.extractLsb' 0 7)
    generalize w.extractLsb' 13 3 = op at row
    cases row with
    | jalr =>
      rw [Instr.ofVariant_jalr]
      split
      · next hb => exact decide_eq_true ⟨hs, hb⟩
      · next hb => exact decide_eq_true ⟨hs, hb⟩
    | addi | lw | sw | beq => exact decide_eq_true hs

/-- A well-formed instruction's word decodes to its variant: the row of the instruction, and its immediate in range. -/
theorem decodeVariant_encode {i : Instr} (h : i.WellFormed) : decodeVariant (encode i) = .ok i.variant := by
  unfold encode
  cases i with
  | add a b c => exact (congrArg _ (encodeVariant_rowRRR .add a b c)).trans (decodeVariant_wordRRR .add a b c)
  | nand a b c => exact (congrArg _ (encodeVariant_rowRRR .nand a b c)).trans (decodeVariant_wordRRR .nand a b c)
  | lui a imm =>
    rw [Instr.variant, encodeVariant_lui, decodeVariant_wordRI, (immInRange_iff imm).1 (of_decide_eq_true h)]
  | addi a b simm => exact decodeVariant_encodeVariant_rowRRI .addi a b (of_decide_eq_true h)
  | lw a b simm => exact decodeVariant_encodeVariant_rowRRI .lw a b (of_decide_eq_true h)
  | sw a b simm => exact decodeVariant_encodeVariant_rowRRI .sw a b (of_decide_eq_true h)
  | beq a b simm => exact decodeVariant_encodeVariant_rowRRI .beq a b (of_decide_eq_true h)
  | jalr a b simm => exact decodeVariant_encodeVariant_rowRRI .jalr a b (of_decide_eq_true h).1
  | hlt a b simm => exact decodeVariant_encodeVariant_rowRRI .jalr a b (of_decide_eq_true h).1

/-- Settles O1: the word decodes to the instruction's variant, and the halt bit gives back its row. -/
theorem decodeOfEncode : Obligations.DecodeOfEncode := fun i h => by
  rw [decode_of_decodeVariant (decodeVariant_encode h), Instr.ofVariant_variant h]

/-- Settles O2: what a word decodes to is one of the table's rows with the word's own fields. -/
theorem encodeOfDecode : Obligations.EncodeOfDecode := by
  intro w i h
  obtain ⟨v, hv, rfl⟩ := (decode_ok_iff w i).1 h
  have hrow := (decodeVariant_ok_iff w v).1 hv
  exact ⟨hrow.wellFormed, by rw [encode, Instr.variant_ofVariant, hrow.encodeVariant_eq]⟩

/-! ### The encoder's constructors (30_encoding R75 to R80) -/

/-- The word of a constructor with a signed immediate (30_encoding R77). -/
theorem asmSigned7_of_mem (op a b : RegNum) {i : Int} (h : -64 ≤ i ∧ i ≤ 63) :
    asmSigned7 op a b i = .ok (wordRRI op a b (BitVec.ofInt 7 i)) := by
  rw [asmSigned7, if_pos h, encodeRRI_eq, setWidth_ofInt (by decide)]

theorem asmSigned7_of_not_mem (op a b : RegNum) {i : Int} (h : ¬ (-64 ≤ i ∧ i ≤ 63)) :
    asmSigned7 op a b i = .error (.immediateOutOfRange i) := if_neg h

/-- The word of `lui` (30_encoding R80). -/
theorem asmLui_of_mem (a : RegNum) {i : Int} (h : 0 ≤ i ∧ i ≤ 1023) :
    asmLui a i = .ok (wordRI 0b011#3 a (BitVec.ofInt 10 i)) := by
  rw [asmLui, if_pos h, encodeRI_eq, setWidth_ofInt (by decide)]

theorem asmLui_of_not_mem (a : RegNum) {i : Int} (h : ¬ (0 ≤ i ∧ i ≤ 1023)) :
    asmLui a i = .error (.immediateOutOfRange i) := if_neg h

theorem asmJalr_eq (a b : RegNum) : asmJalr a b = wordRRI 0b111#3 a b 0#7 := encodeRRI_eq 0b111#3 a b 0#16

/-- Settles O10: the four constructors are one range check and one word. -/
theorem signedImmediateEncoders : Obligations.SignedImmediateEncoders := by
  intro a b i
  refine ⟨fun h => ?_, fun h => ?_⟩
  · exact ⟨asmSigned7_of_mem _ a b h, asmSigned7_of_mem _ a b h, asmSigned7_of_mem _ a b h, asmSigned7_of_mem _ a b h⟩
  · have hout : ¬ (-64 ≤ i ∧ i ≤ 63) := by omega
    exact ⟨asmSigned7_of_not_mem _ a b hout, asmSigned7_of_not_mem _ a b hout, asmSigned7_of_not_mem _ a b hout,
      asmSigned7_of_not_mem _ a b hout⟩

/-- Settles O11: each constructor's shifts and ors are its fields side by side. -/
theorem totalEncoders : Obligations.TotalEncoders :=
  ⟨encodeRRR_eq 0b000#3, encodeRRR_eq 0b010#3, asmJalr_eq, rfl⟩

/-- Settles O12: the range check, and the ten bits of an immediate in range. -/
theorem luiEncoder : Obligations.LuiEncoder := fun a _ => ⟨asmLui_of_mem a, fun h => asmLui_of_not_mem a (by omega)⟩

/-- Settles O13: nine closed evaluations of the decoder. -/
theorem sampleWordsDecode : Obligations.SampleWordsDecode := by
  unfold Obligations.SampleWordsDecode
  decide

/-! ### The round trip (30_encoding R84) -/

/-- A signed immediate that the encoder accepts comes back sign-extended (30_encoding R84 (b)). -/
theorem decodeVariant_of_asmSigned7 {op : RegNum} {mk : RegNum → RegNum → Word → Variant} (row : RowRRI op mk)
    {a b : RegNum} {i : Int} {w : Word} (h : asmSigned7 op a b i = .ok w) :
    decodeVariant w = .ok (mk a b ((BitVec.ofInt 7 i).signExtend 16)) := by
  by_cases hi : -64 ≤ i ∧ i ≤ 63
  · cases (asmSigned7_of_mem op a b hi).symm.trans h
    exact decodeVariant_wordRRI row a b _
  · cases (asmSigned7_of_not_mem op a b hi).symm.trans h

/-- An immediate that `lui` accepts comes back as itself (30_encoding R84 (b)). -/
theorem decodeVariant_of_asmLui {a : RegNum} {i : Int} {w : Word} (h : asmLui a i = .ok w) :
    ∃ imm : Word, (imm.toNat : Int) = i ∧ decodeVariant w = .ok (.lui a imm) := by
  by_cases hi : 0 ≤ i ∧ i ≤ 1023
  · cases (asmLui_of_mem a hi).symm.trans h
    refine ⟨_, ?_, decodeVariant_wordRI a _⟩
    rw [BitVec.toNat_setWidth, BitVec.toNat_ofInt]
    omega
  · cases (asmLui_of_not_mem a hi).symm.trans h

/-- Settles O3: (a) is the decoder's table of rows read backwards, (b) the table on the constructors' words. -/
theorem encoderDecoderRoundTrip : Obligations.EncoderDecoderRoundTrip := by
  refine ⟨fun w v h => ((decodeVariant_ok_iff w v).1 h).encodeVariant_eq, fun a b simm => rfl, fun a b c => ?_,
    fun a b c => ?_, fun a b i w h => decodeVariant_of_asmSigned7 .addi h,
    fun a b i w h => decodeVariant_of_asmSigned7 .lw h, fun a b i w h => decodeVariant_of_asmSigned7 .sw h,
    fun a b i w h => decodeVariant_of_asmSigned7 .beq h, fun a i w h => decodeVariant_of_asmLui h, fun a b => ?_, ?_⟩
  · rw [asmAdd, encodeRRR_eq, decodeVariant_wordRRR .add]
  · rw [asmNand, encodeRRR_eq, decodeVariant_wordRRR .nand]
  · rw [asmJalr_eq, decodeVariant_wordRRI .jalr]
    rfl
  · decide

/-! ### The rows of the opcode table (30_encoding R71) -/

/-- A word agrees with a row's match in every field that the row's mask covers. -/
theorem extractLsb'_of_and_eq {w mask m : Word} {start len : Nat} {f : BitVec len} (h : w &&& mask = m)
    (hmask : mask.extractLsb' start len = BitVec.allOnes len := by decide)
    (hm : m.extractLsb' start len = f := by decide) : w.extractLsb' start len = f := by
  rw [← hm, ← h, BitVec.extractLsb'_and, hmask, BitVec.and_allOnes]

/-- The word of a well-formed instruction lies in its row. -/
theorem encode_and_rowMask {i : Instr} (h : i.WellFormed) : encode i &&& i.rowMask = i.rowMatch := by
  cases i with
  | add a b c => exact Laws.EncodedRow.add a b c h
  | addi a b simm => exact Laws.EncodedRow.addi a b simm h
  | nand a b c => exact Laws.EncodedRow.nand a b c h
  | lui a imm => exact Laws.EncodedRow.lui a imm h
  | lw a b simm => exact Laws.EncodedRow.lw a b simm h
  | sw a b simm => exact Laws.EncodedRow.sw a b simm h
  | beq a b simm => exact Laws.EncodedRow.beq a b simm h
  | jalr a b simm => exact Laws.EncodedRow.jalr a b simm h
  | hlt a b simm => exact Laws.EncodedRow.hlt a b simm h

/-- The two rows of opcode `0b111`, told apart by bit 0 of the word (30_encoding R68). -/
theorem decode_of_jalr {w : Word} (hop : w.extractLsb' 13 3 = 0b111#3) :
    ∃ a b simm, decode w = .ok (if w.extractLsb' 0 1 = 1#1 then .hlt a b simm else .jalr a b simm) := by
  have hbit : HaltBitSet ((w.extractLsb' 0 7).signExtend 16) ↔ w.extractLsb' 0 1 = 1#1 := by
    simp [HaltBitSet, BitVec.eq_of_getLsbD_eq_iff, BitVec.getElem_signExtend]
  refine ⟨w.extractLsb' 10 3, w.extractLsb' 7 3, (w.extractLsb' 0 7).signExtend 16,
    (decode_of_decodeVariant (decodeVariant_of_rowRRI .jalr hop)).trans ?_⟩
  rw [Instr.ofVariant_jalr]
  simp only [hbit]

/-- A word in a row decodes to an instruction of that row: the mask covers the opcode and the fixed bits. -/
theorem exists_decode_of_row {w : Word} {j : Instr} (h : w &&& j.rowMask = j.rowMatch) :
    ∃ i, decode w = .ok i ∧ i.rowMask = j.rowMask ∧ i.rowMatch = j.rowMatch := by
  cases j <;> simp only [Instr.rowMask, Instr.rowMatch] at h ⊢
  case add =>
    have hdec := decodeVariant_of_rowRRR .add (extractLsb'_of_and_eq h) (extractLsb'_of_and_eq h)
    exact ⟨_, decode_of_decodeVariant hdec, rfl, rfl⟩
  case nand =>
    have hdec := decodeVariant_of_rowRRR .nand (extractLsb'_of_and_eq h) (extractLsb'_of_and_eq h)
    exact ⟨_, decode_of_decodeVariant hdec, rfl, rfl⟩
  case lui => exact ⟨_, decode_of_decodeVariant (decodeVariant_of_lui (extractLsb'_of_and_eq h)), rfl, rfl⟩
  case addi => exact ⟨_, decode_of_decodeVariant (decodeVariant_of_rowRRI .addi (extractLsb'_of_and_eq h)), rfl, rfl⟩
  case lw => exact ⟨_, decode_of_decodeVariant (decodeVariant_of_rowRRI .lw (extractLsb'_of_and_eq h)), rfl, rfl⟩
  case sw => exact ⟨_, decode_of_decodeVariant (decodeVariant_of_rowRRI .sw (extractLsb'_of_and_eq h)), rfl, rfl⟩
  case beq => exact ⟨_, decode_of_decodeVariant (decodeVariant_of_rowRRI .beq (extractLsb'_of_and_eq h)), rfl, rfl⟩
  case jalr =>
    obtain ⟨a, b, simm, hd⟩ := decode_of_jalr (extractLsb'_of_and_eq h)
    have hbit : w.extractLsb' 0 1 = 0#1 := extractLsb'_of_and_eq h
    exact ⟨.jalr a b simm, by rw [hd, hbit]; rfl, rfl, rfl⟩
  case hlt =>
    obtain ⟨a, b, simm, hd⟩ := decode_of_jalr (extractLsb'_of_and_eq h)
    have hbit : w.extractLsb' 0 1 = 1#1 := extractLsb'_of_and_eq h
    exact ⟨.hlt a b simm, by rw [hd, hbit]; rfl, rfl, rfl⟩

/-- Settles O6: a word that decodes is the encoding of an instruction of the row, and a word in the row decodes to one. -/
theorem rowsPartitionLegalWords : Obligations.RowsPartitionLegalWords := by
  intro w j
  refine ⟨exists_decode_of_row, fun ⟨i, hd, hmask, hmatch⟩ => ?_⟩
  obtain ⟨hwf, rfl⟩ := encodeOfDecode w i hd
  rw [← hmask, ← hmatch, encode_and_rowMask hwf]

end Sys2Proof.Machine
end

section
/-! PROOFS. The statements about the bit-field codec (40_bitfield_codec). A function and its shift circuit are equal because
they have the same bits. -/

namespace Sys2Proof.Machine

/-! ### The codec: the value of a field, and the sign bit's index -/

/-- `extractField` as a number (40_bitfield_codec R90). A field of at most 16 bits loses nothing in a Word. -/
theorem toNat_extractField (word : Word) (startBit width : Nat) (h : startBit + width ≤ 16) :
    (extractField word startBit width h).toNat = word.toNat / 2 ^ startBit % 2 ^ width := by
  have hwidth : width ≤ 16 := Nat.le_of_add_left_le h
  rw [extractField_eq_extractLsb', BitVec.toNat_setWidth_of_le hwidth, BitVec.extractLsb'_toNat,
    Nat.shiftRight_eq_div_pow]

/-- `signExtend` bit by bit with one index: the bits above the sign bit read the sign bit (40_bitfield_codec R92, D21). -/
theorem getLsbD_signExtend_min (value : Word) (s : Nat) (h : s ≤ 15) {i : Nat} (hi : i < 16) :
    (signExtend value s h).getLsbD i = value.getLsbD (min i s) := by
  rw [getLsbD_signExtend value s h hi]
  by_cases his : i < s + 1
  · rw [if_pos his, Nat.min_eq_left (Nat.le_of_lt_succ his)]
  · rw [if_neg his, Nat.min_eq_right (by omega)]

/-- Settles O7: the number, the bits and the slice are each a law of `extractField`; the slice needs no lower bound on the
width. -/
theorem extractFieldIsTheField : Obligations.ExtractFieldIsTheField := fun word startBit width h =>
  ⟨toNat_extractField word startBit width h, getLsbD_extractField word startBit width h,
    fun _ => extractField_eq_extractLsb' word startBit width h⟩

/-- Settles O8: the value and the bits are each a law of `signExtend`. -/
theorem signExtendCopiesTheSignBit : Obligations.SignExtendCopiesTheSignBit := fun value s h =>
  ⟨signExtend_eq_signExtend_extractLsb' value s h, fun _ => getLsbD_signExtend_min value s h⟩

/-! ### The shift circuit bit by bit (40_bitfield_codec R94) -/

/-- The left shift puts the field's top bit at bit 15, so the logical right shift brings zeros in above the field. -/
theorem getLsbD_shiftExtractField (word : Word) {startBit width : Nat} (h : startBit + width ≤ 16) (i : Nat) :
    (shiftExtractField word startBit width).getLsbD i = (decide (i < width) && word.getLsbD (startBit + i)) := by
  have hin : 16 - width + i < 16 ↔ i < width := by omega
  have hlow : ¬ 16 - width + i < 16 - startBit - width := by omega
  have hindex : 16 - width + i - (16 - startBit - width) = startBit + i := by omega
  rw [shiftExtractField, BitVec.getLsbD_ushiftRight, BitVec.getLsbD_shiftLeft, hindex, decide_eq_false hlow,
    Bool.not_false, Bool.and_true, decide_eq_decide.2 hin]

/-- The left shift puts the sign bit at bit 15, so the arithmetic right shift brings copies of it in. -/
theorem getLsbD_shiftSignExtend (value : Word) {s i : Nat} (h : s ≤ 15) (hi : i < 16) :
    (shiftSignExtend value s).getLsbD i = value.getLsbD (min i s) := by
  have hshifted : ∀ j, j ≤ s → (value <<< (15 - s)).getLsbD (15 - s + j) = value.getLsbD j := fun j hj => by
    have hin : 15 - s + j < 16 := by omega
    rw [BitVec.getLsbD_shiftLeft, decide_eq_true hin, decide_eq_false (Nat.not_lt.2 (Nat.le_add_right _ j)),
      Nat.add_sub_cancel_left, Bool.not_false, Bool.true_and, Bool.true_and]
  have hmsb : (value <<< (15 - s)).msb = value.getLsbD s := by
    rw [BitVec.msb_eq_getLsbD_last, ← hshifted s (Nat.le_refl s), Nat.sub_add_cancel h]
  rw [shiftSignExtend, BitVec.getLsbD_sshiftRight, decide_eq_false (Nat.not_le.2 hi), Bool.not_false, Bool.true_and]
  by_cases his : i ≤ s
  · rw [if_pos (by omega), hshifted i his, Nat.min_eq_left his]
  · rw [if_neg (by omega), hmsb, Nat.min_eq_right (by omega)]

/-- Settles O9: a function and its circuit have the same bits. A width of 0 would not part them. -/
theorem shifterEqualsCodec : Obligations.ShifterEqualsCodec := by
  refine ⟨fun word startBit width h _ => ?_, fun value s h => ?_⟩
  · refine BitVec.eq_of_getLsbD_eq fun i _ => ?_
    rw [getLsbD_extractField, getLsbD_shiftExtractField word h]
  · refine BitVec.eq_of_getLsbD_eq fun i hi => ?_
    rw [getLsbD_signExtend_min value s h hi, getLsbD_shiftSignExtend value h hi]

end Sys2Proof.Machine
end

section
/-! PROOFS. The statements about the decoder (41_decoder): what each arm delivers, and which words fail. -/

namespace Sys2Proof.Machine

/-- Settles O4: each arm is the decoder's table on a row of the table. -/
theorem decoderArms : Obligations.DecoderArms :=
  ⟨decodeVariant_wordRI, decodeVariant_wordRRI .jalr, decodeVariant_wordRRI .addi, decodeVariant_wordRRI .sw,
    decodeVariant_wordRRI .lw, decodeVariant_wordRRI .beq, decodeVariant_wordRRR .add, decodeVariant_wordRRR .nand⟩

/-! ### The words that fail (41_decoder R113) -/

theorem exists_rowRRR_iff (op : RegNum) : (∃ mk, RowRRR op mk) ↔ op = 0b000#3 ∨ op = 0b010#3 := by
  constructor
  · rintro ⟨mk, row⟩
    cases row with
    | add => exact .inl rfl
    | nand => exact .inr rfl
  · rintro (rfl | rfl)
    · exact ⟨_, .add⟩
    · exact ⟨_, .nand⟩

/-- The decoder's one failure: the arms of the other two formats check no bit beyond the opcode. -/
theorem decodeVariant_error_iff (w : Word) (r : Raised) :
    decodeVariant w = .error r ↔
      (∃ mk, RowRRR (w.extractLsb' 13 3) mk) ∧ w.extractLsb' 3 4 ≠ 0#4 ∧ r = .malformedInstruction w := by
  constructor
  · intro h
    rcases opcode_cases (w.extractLsb' 13 3) with ⟨mk, row⟩ | hop | ⟨mk, row⟩
    · by_cases hz : w.extractLsb' 3 4 = 0#4
      · cases (decodeVariant_of_rowRRR row rfl hz).symm.trans h
      · cases (decodeVariant_of_malformed row rfl hz).symm.trans h
        exact ⟨⟨mk, row⟩, hz, rfl⟩
    · cases (decodeVariant_of_lui hop).symm.trans h
    · cases (decodeVariant_of_rowRRI row rfl).symm.trans h
  · rintro ⟨⟨mk, row⟩, hz, rfl⟩
    exact decodeVariant_of_malformed row rfl hz

theorem decode_error_iff_decodeVariant (w : Word) (r : Raised) :
    decode w = .error r ↔ decodeVariant w = .error r := by
  unfold decode
  cases decodeVariant w <;> simp [Except.map]

/-- Exactly the register-register words with a non-zero field of bits 6 to 3 fail (41_decoder R113). -/
theorem decode_error_iff (w : Word) (r : Raised) :
    decode w = .error r ↔ (w.extractLsb' 13 3 = 0b000#3 ∨ w.extractLsb' 13 3 = 0b010#3) ∧ w.extractLsb' 3 4 ≠ 0#4 ∧
      r = .malformedInstruction w := by
  rw [decode_error_iff_decodeVariant, decodeVariant_error_iff, exists_rowRRR_iff]

/-! ### The same words by masks (30_encoding R69) -/

/-- The test of the register-register form, `(opcode & 0b101) = 0` (41_decoder R103). -/
theorem opcode_and_eq_zero_iff (op : RegNum) : op &&& 0b101#3 = 0#3 ↔ op = 0b000#3 ∨ op = 0b010#3 := by
  revert op
  decide

theorem registerRegister_of_and_mask {w : Word} (h : w &&& 0xA000#16 = 0#16) :
    w.extractLsb' 13 3 = 0b000#3 ∨ w.extractLsb' 13 3 = 0b010#3 := by
  have hop := congrArg (BitVec.extractLsb' 13 3) h
  rw [BitVec.extractLsb'_and] at hop
  exact (opcode_and_eq_zero_iff _).1 hop

/-- A mask inside a field finds nothing where the field is zero. -/
theorem and_eq_zero_of_field_eq_zero {w mask : Word} {start len : Nat} (h : w.extractLsb' start len = 0#len)
    (hmask : ∀ i < 16, mask.getLsbD i = true → start ≤ i ∧ i < start + len) : w &&& mask = 0#16 := by
  refine BitVec.eq_of_getLsbD_eq fun i hi => ?_
  rw [BitVec.getLsbD_and, BitVec.getLsbD_zero]
  cases hm : mask.getLsbD i with
  | false => exact Bool.and_false _
  | true =>
    obtain ⟨hstart, hend⟩ := hmask i hi hm
    have hbit := congrArg (BitVec.getLsbD · (i - start)) h
    have hlt : i - start < len := by omega
    have hindex : start + (i - start) = i := by omega
    simpa [hlt, hindex] using hbit

theorem field_ne_zero_of_and_mask {w : Word} (h : w &&& 0x0078#16 ≠ 0#16) : w.extractLsb' 3 4 ≠ 0#4 :=
  fun hz => h (and_eq_zero_of_field_eq_zero hz (by decide))

/-! ### The step of a word that fails (45_engine R152) -/

theorem step_of_decode_error {s : State} {w : Word} {r : Raised} (hh : s.halt = false) (hf : s.fetch = .ok w)
    (hd : decode w = .error r) : step s = s.faultEntry r := by
  simp [step, engineStep, hh, hf, hd]

/-- A step that faults, as a command: the state is as it was (60_exceptions R205, D6). -/
theorem State.stepCommand_of_faultEntry {s : State} {r : Raised} (h : step s = s.faultEntry r) :
    s.stepCommand = (s, .fault (Raised.toFault s.pc r)) := by
  rw [State.stepCommand, h]
  rfl

/-- Settles O5: the decoder's one failure, and the step that meets it. -/
theorem malformedWordsFail : Obligations.MalformedWordsFail := by
  refine ⟨decode_error_iff, fun s w hh hf hop hz => ?_⟩
  have hd := (decode_error_iff w _).2 ⟨registerRegister_of_and_mask hop, field_ne_zero_of_and_mask hz, rfl⟩
  exact State.stepCommand_of_faultEntry (step_of_decode_error hh hf hd)

end Sys2Proof.Machine
end

section
/-! PROOFS. The statements about add, nand, lui and addi (42_arithmetic). The four share one shape, a register write and
then the next instruction: what that shape does is said once, and each statement adds its own value. -/

namespace Sys2Proof.Machine

/-- Result, completion and frame of an instruction whose whole meaning is one register write (42_arithmetic). -/
theorem exec_completes_of_eq_writeAndAdvance {i : Instr} {s : State} {a : RegNum} {v : Word}
    (h : exec i s = s.writeAndAdvance a v) :
    ∃ t, exec i s = .next t ∧ RegWritten s t a v ∧ t.pc = s.pc + 2 ∧ t.halt = s.halt ∧ SameMem s t ∧ SamePorts s t ∧
      (s.halt = false → StepResult.ofOutcome (exec i s) = .continued) := by
  rw [h]
  refine ⟨(s.setReg a v).complete s.nextPC, rfl, regWritten_of_x_eq_write rfl, rfl, rfl, fun _ => rfl, ⟨rfl, rfl⟩, ?_⟩
  exact fun hhalt => StepResult.ofOutcome_next_of_clear hhalt rfl

/-! ### The value of `lui` (42_arithmetic R122) -/

/-- The mask of `lui` finds the low six bits cleared by the shift already. -/
theorem luiValue_eq_shiftLeft (imm : Word) : luiValue imm = imm <<< 6 := by
  have hmask : 0xFFC0#16 = BitVec.allOnes 16 <<< 6 := by decide
  rw [luiValue, hmask, ← BitVec.shiftLeft_and_distrib, BitVec.and_allOnes]

theorem luiValue_setWidth (imm : BitVec 10) : luiValue (imm.setWidth 16) = (imm ++ 0#6).setWidth 16 := by
  rw [luiValue_eq_shiftLeft, BitVec.setWidth_append_eq_shiftLeft_setWidth_or, BitVec.setWidth_zero, BitVec.or_zero]

/-- The upper ten bits and the lower six put a Word together again: nothing carries, as no position is set in both. -/
theorem luiValue_add_low_bits (k : Word) :
    addValue (luiValue ((k.extractLsb' 6 10).setWidth 16)) ((k.extractLsb' 0 6).setWidth 16) = k := by
  have hlow : (k.extractLsb' 0 6).setWidth 16 = 0#10 ++ k.extractLsb' 0 6 := by
    rw [BitVec.setWidth_eq_append (by decide)]
    rfl
  calc addValue (luiValue ((k.extractLsb' 6 10).setWidth 16)) ((k.extractLsb' 0 6).setWidth 16)
      = (k.extractLsb' 6 10 ++ 0#6) + (0#10 ++ k.extractLsb' 0 6) := by
        rw [addValue, luiValue_setWidth, BitVec.setWidth_eq, hlow]
    _ = k.extractLsb' 6 10 ++ k.extractLsb' 0 6 := BitVec.append_zero_add_zero_append
    _ = k := by
        rw [BitVec.extractLsb'_append_extractLsb'_eq_extractLsb' (show 6 = 0 + 6 from rfl), BitVec.extractLsb'_eq_self]

/-- The full 16-bit constant by `lui` and `addi` (42_arithmetic R122). -/
theorem exec_lui_addi_constant {a : RegNum} (ha : a ≠ 0) (k : Word) (s : State) :
    ∃ t u, exec (.lui a ((k.extractLsb' 6 10).setWidth 16)) s = .next t ∧
      exec (.addi a a ((k.extractLsb' 0 6).setWidth 16)) t = .next u ∧ u.reg a = k := by
  obtain ⟨t, hlui, ⟨hta, -⟩, -⟩ :=
    exec_completes_of_eq_writeAndAdvance (i := .lui a ((k.extractLsb' 6 10).setWidth 16)) (s := s) rfl
  obtain ⟨u, haddi, ⟨hua, -⟩, -⟩ :=
    exec_completes_of_eq_writeAndAdvance (i := .addi a a ((k.extractLsb' 0 6).setWidth 16)) (s := t) rfl
  refine ⟨t, u, hlui, haddi, ?_⟩
  rw [hua ha, hta ha, luiValue_add_low_bits]

/-- Settles O24: the shape of the four with the value of `lui`, and the constant its upper and lower bits put together. -/
theorem luiLoadsTheUpperBits : Obligations.LuiLoadsTheUpperBits := by
  refine ⟨fun a imm s => ⟨?_, ?_⟩, fun a k s ha => exec_lui_addi_constant ha k s⟩
  · rw [encode, Instr.variant, encodeVariant_lui, BitVec.setWidth_setWidth_of_le _ (by decide), BitVec.setWidth_eq]
  · rw [← luiValue_setWidth]
    exact exec_completes_of_eq_writeAndAdvance rfl

/-! ### `add`, `nand` and `addi` (42_arithmetic R120, R121, R123) -/

/-- Settles O22: the shape of the four with the sum; that BLOCKED is clear holds of every instruction but `lw` (D4). -/
theorem addWritesTheSum : Obligations.AddWritesTheSum := by
  refine fun a b c s => ⟨encodeVariant_rowRRR .add a b c, ?_⟩
  obtain ⟨t, hnext, hreg, hpc, hhalt, hframe⟩ :=
    exec_completes_of_eq_writeAndAdvance (i := .add a b c) (s := s) (v := s.reg b + s.reg c) rfl
  have hblocked : t.blocked = false := exec_next_blocked_of_ne_lw (by simp) hnext
  exact ⟨t, hnext, hreg, hpc, hhalt, hblocked, hframe⟩

/-- Settles O23: the shape of the four with the 16-bit complement. -/
theorem nandWritesTheComplement : Obligations.NandWritesTheComplement := fun a b c _ =>
  ⟨encodeVariant_rowRRR .nand a b c, exec_completes_of_eq_writeAndAdvance rfl⟩

/-- Settles O25: the shape of the four with the wrapped sum; the encoder keeps the low seven bits of `simm`. -/
theorem addiAddsTheImmediate : Obligations.AddiAddsTheImmediate := by
  refine ⟨fun a b imm => ?_, fun _ _ _ _ => exec_completes_of_eq_writeAndAdvance rfl⟩
  exact (encodeVariant_rowRRI .addi a b _).trans (by rw [setWidth_signExtend_of_le (by decide)])

end Sys2Proof.Machine
end

section
/-! PROOFS. The statements about lw, sw and the two console ports (43_load_store_io). -/

namespace Sys2Proof.Machine

/-! ### The unaligned access (43_load_store_io R130, R131) -/

/-- The port's address is even, so the port and the fault never meet (20_memory R46). -/
theorem ne_portAddr_of_isOdd {ea : Word} (h : isOdd ea = true) : ea ≠ portAddr := by
  rintro rfl
  cases h

theorem execLw_unaligned {a b : RegNum} {simm : Word} {s : State} (h : isOdd (s.effectiveAddress b simm) = true) :
    execLw a b simm s = .fault (.unalignedAccess s.pc (s.effectiveAddress b simm)) := by
  simp [execLw, ne_portAddr_of_isOdd h, memRead_odd h, State.faultEntry, Raised.toFault]

theorem execSw_unaligned {a b : RegNum} {simm : Word} {s : State} (h : isOdd (s.effectiveAddress b simm) = true) :
    execSw a b simm s = .fault (.unalignedAccess s.pc (s.effectiveAddress b simm)) := by
  simp [execSw, ne_portAddr_of_isOdd h, memWrite_odd h, State.faultEntry, Raised.toFault]

/-! ### Results, words and frames of `lw` and `sw` -/

/-- An immediate held in seven bits comes back out of the word (30_encoding R77). -/
theorem encodeVariant_rowRRI_signExtend {op : RegNum} {mk : RegNum → RegNum → Word → Variant} (row : RowRRI op mk)
    (a b : RegNum) (imm : BitVec 7) : encodeVariant (mk a b (imm.signExtend 16)) = wordRRI op a b imm := by
  rw [encodeVariant_rowRRI row, setWidth_signExtend_of_le (by decide)]

/-- An instruction that completes without touching HALT answers `Continued` (45_engine R156). -/
theorem StepResult.ofOutcome_of_complete {o : Result} {s u : State} {p : Word} (h : o = .next (u.complete p))
    (hu : u.halt = s.halt) (hs : s.halt = false) : StepResult.ofOutcome o = .continued := by
  rw [h]
  exact StepResult.ofOutcome_next_of_clear (hu.trans hs) rfl

/-- Result, completion and frame of an `lw` that gets a value, from the port (`q` is the rest of the queue) or from memory
(`q` is the queue) (43_load_store_io R130, D4). -/
theorem exec_completes_of_load {i : Instr} {s : State} {a : RegNum} {v : Word} {q : List Word}
    (h : exec i s = .next ((({ s with inq := q } : State).setReg a v).complete s.nextPC)) :
    ∃ t, exec i s = .next t ∧ RegWritten s t a v ∧ t.inq = q ∧ t.out = s.out ∧ t.pc = s.pc + 2 ∧ t.halt = s.halt ∧
      t.blocked = false ∧ SameMem s t ∧ (s.halt = false → StepResult.ofOutcome (exec i s) = .continued) :=
  ⟨_, h, regWritten_of_x_eq_write rfl, rfl, rfl, rfl, rfl, rfl, fun _ => rfl, StepResult.ofOutcome_of_complete h rfl⟩

/-- Settles O26, one case of `lw` after another: the port is asked first, then the parity of the address (D2). -/
theorem lwReadsPortOrMemory : Obligations.LwReadsPortOrMemory := by
  refine ⟨encodeVariant_rowRRI_signExtend .lw, fun a b simm s => ⟨fun hea hq => ?blocked, fun v q hea hq => ?pop,
    fun hodd => execLw_unaligned hodd, fun hea heven => ?load⟩⟩
  case blocked =>
    have hexec : exec (.lw a b simm) s = .next s.setBlocked := execLw_port_empty hea hq
    exact ⟨hexec, fun hhalt => by simp [hexec, StepResult.ofOutcome, hhalt]⟩
  case pop => exact exec_completes_of_load (execLw_port_cons hea hq)
  case load =>
    have hread := memRead_even heven s.mem
    obtain ⟨t, hnext, hreg, hinq, hout, hpc, hhalt, hblocked, hmem, hresult⟩ :=
      exec_completes_of_load (i := .lw a b simm) (q := s.inq) (execLw_memory hea hread)
    exact ⟨t, _, hread, hnext, hreg, hpc, hhalt, hblocked, hmem, ⟨hinq, hout⟩, hresult⟩

/-- Settles O27, one case of `sw` after another: the port is asked first, then the parity of the address (D2). -/
theorem swWritesPortOrMemory : Obligations.SwWritesPortOrMemory := by
  refine ⟨encodeVariant_rowRRI_signExtend .sw, fun a b simm s => ⟨rfl, fun hea => ?port, fun hodd => ?fault,
    fun hea heven => ?store⟩⟩
  case port =>
    have hexec : exec (.sw a b simm) s = _ := execSw_port hea
    exact ⟨_, hexec, rfl, rfl, fun _ => rfl, rfl, rfl, fun _ => rfl, StepResult.ofOutcome_of_complete hexec rfl⟩
  case fault =>
    have hexec : exec (.sw a b simm) s = _ := execSw_unaligned hodd
    exact ⟨hexec, by rw [hexec]; rfl⟩
  case store =>
    have hexec : exec (.sw a b simm) s = _ := execSw_memory hea heven
    exact ⟨_, hexec, memWritten_of_mem_eq_set heven rfl, fun _ => rfl, rfl, rfl, ⟨rfl, rfl⟩,
      StepResult.ofOutcome_of_complete hexec rfl⟩

/-! ### Word 0 of memory (20_memory R46) -/

section
variable {R : State → State → Prop} (hrefl : ∀ s, R s s) (htrans : ∀ {s t u}, R s t → R t u → R s u)
  (hstep : ∀ {s t}, step s = .next t → R s t) (hpush : ∀ {s t v}, s.pushInput v = .ok t → R s t)
include hrefl htrans hstep hpush

/-- The induction over commands when none of them is a load: what a step and a push keep, the commands keep. -/
theorem State.performAll_rel_of_no_load (s : State) (cs : List HostCommand) (hcs : ∀ c ∈ cs, c.isLoad = false) :
    R s (s.performAll cs) := by
  induction cs generalizing s with
  | nil => exact hrefl s
  | cons c cs ih =>
    obtain ⟨hc, hrest⟩ := List.forall_mem_cons.1 hcs
    have hfirst : R s (s.perform c).1 := by
      rcases s.perform_fst_cases c with h | ⟨ws, rfl, -⟩ | ⟨v, -, h⟩ | ⟨-, k, h⟩
      · rw [h]; exact hrefl s
      · cases hc
      · exact hpush h
      · rw [h]; exact s.stepTimes_rel hrefl htrans hstep k
    exact htrans hfirst (ih (s.perform c).1 hrest)

end

/-- A write to another word leaves word 0 as it was. -/
theorem memRead_zero_set {j : Nat} (hj : j ≠ 0) (m : Memory) (v : Word) :
    memRead (Memory.set m j v) 0 = memRead m 0 := by
  have hindex : wordIndex 0 ≠ j := hj.symm
  rw [memRead_even rfl, memRead_even rfl, Memory.get_set, if_neg hindex]

/-- Of all an instruction can do, only a store touches memory, and none stores to word 0 (43_load_store_io R131). -/
theorem exec_next_memRead_zero {i : Instr} {s t : State} (h : exec i s = .next t) : memRead t.mem 0 = memRead s.mem 0 := by
  rcases exec_next_cases h with ⟨a, v, rfl⟩ | ⟨-, rfl⟩ | ⟨a, v, q, -, rfl⟩ | ⟨v, rfl⟩ | ⟨j, v, hj, -, rfl⟩ | ⟨p, rfl⟩ |
    ⟨-, rfl⟩
  case inr.inr.inr.inr.inl => exact memRead_zero_set hj s.mem v
  all_goals rfl

theorem step_next_memRead_zero {s t : State} (h : step s = .next t) : memRead t.mem 0 = memRead s.mem 0 := by
  rcases step_next_nextInstr h with ⟨-, rfl⟩ | ⟨i, -, he⟩
  · rfl
  · exact exec_next_memRead_zero he

/-- Settles O42, by the induction over commands without a load. -/
theorem wordZeroOnlyWrittenByLoad : Obligations.WordZeroOnlyWrittenByLoad := by
  refine State.performAll_rel_of_no_load (R := fun s t => memRead t.mem 0 = memRead s.mem 0) (fun _ => rfl)
    (fun hst htu => htu.trans hst) step_next_memRead_zero (fun {s t v} h => ?_)
  obtain ⟨-, rfl⟩ := (s.pushInput_ok_iff t v).1 h
  rfl

/-! ### The blocking protocol (43_load_store_io R133) -/

/-- The step of an `lw` at the input port with nothing waiting (43_load_store_io R130). -/
theorem State.stepCommand_lw_port_empty {s : State} {a b : RegNum} {simm : Word}
    (hi : s.nextInstr = some (.lw a b simm)) (hea : s.effectiveAddress b simm = portAddr) (hq : s.inq = []) :
    s.stepCommand = (s.setBlocked, .blockedOnInput) := by
  obtain ⟨hh, -⟩ := (s.nextInstr_eq_some_iff _).1 hi
  rw [State.stepCommand_of_next ((step_of_nextInstr hi).trans (execLw_port_empty hea hq))]
  simp [StepResult.ofOutcome, hh]

/-- The blocked `lw` is still the next instruction with its port still empty, so it repeats: setting BLOCKED again changes
nothing. -/
theorem State.stepTimes_stepCommand_lw_port_empty {s : State} {a b : RegNum} {simm : Word}
    (hi : s.nextInstr = some (.lw a b simm)) (hea : s.effectiveAddress b simm = portAddr) (hq : s.inq = []) (n : Nat) :
    (s.stepTimes n).stepCommand = (s.setBlocked, .blockedOnInput) := by
  induction n generalizing s with
  | zero => exact State.stepCommand_lw_port_empty hi hea hq
  | succ n ih =>
    rw [State.stepTimes, State.stepCommand_lw_port_empty hi hea hq]
    exact ih (s := s.setBlocked) hi hea hq

/-- A run whose first step does not answer `Continued` ends with it (45_engine R157). -/
theorem State.runToHalt_succ_of_ne_continued {s t : State} {r : StepResult} (h : s.stepCommand = (t, r))
    (hr : r ≠ .continued) (n : Nat) : s.runToHalt (n + 1) = (t, r) := by
  rw [State.runToHalt, h]
  cases r with
  | continued => exact absurd rfl hr
  | halted | blockedOnInput | fault | refused => rfl

/-- Settles O45: the `lw` finds the same state at every retry, and after a push the value at the head of the queue. -/
theorem blockedLoadRetries : Obligations.BlockedLoadRetries := by
  intro s a b simm hi hea hq
  have hblocked : s.stepCommand = (s.setBlocked, .blockedOnInput) := State.stepCommand_lw_port_empty hi hea hq
  refine ⟨hblocked, State.stepTimes_stepCommand_lw_port_empty hi hea hq,
    State.runToHalt_succ_of_ne_continued hblocked (by decide), fun v => ?_⟩
  have hpush : s.stepCommand.1.pushInput v = .ok { s.setBlocked with inq := [v] } := by
    rw [hblocked]
    exact (State.pushInput_ok_iff _ _ v).2 ⟨by simp [hq], by simp [hq]⟩
  have hretry := State.stepCommand_lw_port_cons (s := { s.setBlocked with inq := [v] }) hi hea rfl
  obtain ⟨hhalt, -⟩ := (s.nextInstr_eq_some_iff _).1 hi
  exact ⟨_, _, hpush, hretry, regWritten_of_x_eq_write rfl, rfl, rfl, rfl, rfl, hhalt, fun _ => rfl⟩

/-! ### BLOCKED is not read (10_state R28) -/

/-- An `lw` sets or clears BLOCKED and never looks at it. -/
theorem execLw_ignores_blocked (a b : RegNum) (simm : Word) (s : State) (flag : Bool) :
    execLw a b simm { s with blocked := flag } = execLw a b simm s := by
  by_cases hea : s.effectiveAddress b simm = portAddr
  · by_cases hq : s.inq = []
    · exact (execLw_port_empty (s := { s with blocked := flag }) hea hq).trans (execLw_port_empty hea hq).symm
    · obtain ⟨v, q, hq⟩ := List.exists_cons_of_ne_nil hq
      exact (execLw_port_cons (s := { s with blocked := flag }) hea hq).trans (execLw_port_cons hea hq).symm
  cases ho : isOdd (s.effectiveAddress b simm) with
  | true => exact (execLw_unaligned (s := { s with blocked := flag }) ho).trans (execLw_unaligned ho).symm
  | false =>
    have hread := memRead_even ho s.mem
    exact (execLw_memory (s := { s with blocked := flag }) hea hread).trans (execLw_memory hea hread).symm

/-- An `sw` clears BLOCKED, or faults, and never looks at it. -/
theorem execSw_ignores_blocked (a b : RegNum) (simm : Word) (s : State) (flag : Bool) :
    execSw a b simm { s with blocked := flag } = execSw a b simm s := by
  by_cases hea : s.effectiveAddress b simm = portAddr
  · exact (execSw_port (s := { s with blocked := flag }) hea).trans (execSw_port hea).symm
  cases ho : isOdd (s.effectiveAddress b simm) with
  | true => exact (execSw_unaligned (s := { s with blocked := flag }) ho).trans (execSw_unaligned ho).symm
  | false => exact (execSw_memory (s := { s with blocked := flag }) hea ho).trans (execSw_memory hea ho).symm

/-- No instruction reads BLOCKED (10_state R28). -/
theorem exec_ignores_blocked (i : Instr) (s : State) (flag : Bool) : exec i { s with blocked := flag } = exec i s := by
  cases i with
  | lw a b simm => exact execLw_ignores_blocked a b simm s flag
  | sw a b simm => exact execSw_ignores_blocked a b simm s flag
  | jalr a b simm => exact (State.haltOrNothing_eq { s with blocked := flag } simm).trans (s.haltOrNothing_eq simm).symm
  | hlt a b simm => exact (State.haltOrNothing_eq { s with blocked := flag } simm).trans (s.haltOrNothing_eq simm).symm
  | add | addi | nand | lui | beq => rfl

/-- Two machines that are not halted step alike when they fetch alike, from the same pc, and execute alike
(45_engine R150). -/
theorem step_congr {s t : State} (hs : s.halt = false) (ht : t.halt = false) (hpc : t.pc = s.pc)
    (hfetch : t.fetch = s.fetch) (hexec : ∀ i, exec i t = exec i s) : step t = step s := by
  simp only [step, engineStep, State.faultEntry, hs, ht, hpc, hfetch, hexec, Bool.false_eq_true, if_false]

/-- Settles O47: neither the fetch nor an instruction reads BLOCKED. -/
theorem blockedFlagIsNotRead : Obligations.BlockedFlagIsNotRead := fun s flag hh =>
  ⟨step_congr hh hh rfl rfl fun i => exec_ignores_blocked i s flag, rfl⟩

end Sys2Proof.Machine
end

section
/-! PROOFS. The statements about beq, jalr and hlt (44_control). The two rows of `Jalr` share one meaning and one completion,
told once over the halt bit; `hlt` is the case in which that bit is set. -/

namespace Sys2Proof.Machine

/-! ### The halted machine (45_engine R153) -/

/-- A halted machine's step is nothing but the answer `Halted` (D3). -/
theorem State.stepCommand_of_halt {s : State} (h : s.halt = true) : s.stepCommand = (s, .halted) := by
  rw [State.stepCommand_of_next (step_of_halt h), StepResult.ofOutcome, if_pos h]

/-- A step that leaves the state leaves it however often it is taken. -/
theorem State.stepTimes_of_stepCommand_fst {s : State} (h : s.stepCommand.1 = s) (n : Nat) : s.stepTimes n = s := by
  induction n with
  | zero => rfl
  | succ n ih => rw [State.stepTimes, h, ih]

theorem State.stepTimes_of_halt {s : State} (h : s.halt = true) (n : Nat) : s.stepTimes n = s :=
  State.stepTimes_of_stepCommand_fst (by rw [State.stepCommand_of_halt h]) n

theorem State.runToHalt_succ_of_halt {s : State} (h : s.halt = true) (n : Nat) : s.runToHalt (n + 1) = (s, .halted) :=
  State.runToHalt_succ_of_ne_continued (State.stepCommand_of_halt h) (by decide) n

/-! ### The variant `Jalr` (44_control R142) -/

/-- Both rows of opcode `0b111` are executed by the one rule R142 (44_control R143, log entry 4). -/
theorem exec_of_jalr_or_hlt {i : Instr} {a b : RegNum} {simm : Word} (hi : i = .jalr a b simm ∨ i = .hlt a b simm)
    (s : State) : exec i s = .next { s with halt := s.halt || haltBit simm, pc := s.nextPC, blocked := false } := by
  rcases hi with rfl | rfl <;> exact s.haltOrNothing_eq simm

/-- Result, completion and frame of an instruction of either row: the halt bit sets HALT and is otherwise not felt. -/
theorem exec_completes_of_jalr_or_hlt {i : Instr} {a b : RegNum} {simm : Word}
    (hi : i = .jalr a b simm ∨ i = .hlt a b simm) (s : State) :
    ∃ t, exec i s = .next t ∧ t.halt = (s.halt || simm.getLsbD 0) ∧ t.pc = s.pc + 2 ∧ SameRegs s t ∧ SameMem s t ∧
      SamePorts s t ∧
      (s.halt = false → StepResult.ofOutcome (exec i s) = if simm.getLsbD 0 then .halted else .continued) := by
  have hexec := exec_of_jalr_or_hlt hi s
  refine ⟨_, hexec, rfl, rfl, fun _ => rfl, fun _ => rfl, ⟨rfl, rfl⟩, fun hhalt => ?_⟩
  simp [hexec, StepResult.ofOutcome, hhalt, haltBit]

/-- The halt bit of a well-formed `hlt` is set (30_encoding R71). -/
theorem haltBit_of_wellFormed_hlt {a b : RegNum} {simm : Word} (h : (Instr.hlt a b simm).WellFormed) :
    haltBit simm = true :=
  (of_decide_eq_true h).2

/-- Settles O30: every `hlt` does what its set halt bit does, and the state it gives is one a halted machine stays in. -/
theorem hltHaltsForGood : Obligations.HltHaltsForGood := by
  refine ⟨by decide, fun a b simm s hwf => ?_⟩
  have hbit : haltBit simm = true := haltBit_of_wellFormed_hlt hwf
  constructor
  · have hsame : haltBit simm = haltBit 1 := hbit
    rw [exec_of_jalr_or_hlt (.inr rfl), exec_of_jalr_or_hlt (.inr rfl), hsame]
  · obtain ⟨t, hnext, hhalt, hpc, hregs, hmem, hports, -⟩ :=
      exec_completes_of_jalr_or_hlt (i := .hlt a b simm) (.inr rfl) s
    have ht : t.halt = true := by rw [hhalt, ← haltBit, hbit, Bool.or_true]
    exact ⟨t, hnext, ht, hpc, hregs, hmem, hports, State.stepTimes_of_halt ht, State.runToHalt_succ_of_halt ht⟩

/-! ### The diagnostic of `Jalr` (60_exceptions R207) -/

/-- The diagnostics of a step that runs an instruction: the decoder's, then the instruction's (45_engine R156). -/
theorem stepDiagnostics_of_decode {s : State} {w : Word} {i : Instr} (hh : s.halt = false) (hf : s.fetch = .ok w)
    (hd : decode w = .ok i) : stepDiagnostics s = decodeDiagnostics w ++ execDiagnostics i s.pc w := by
  simp [stepDiagnostics, hh, hf, hd]

/-- `UnimplementedFeature` is not one of the decoder's diagnostics (41_decoder R115). -/
theorem unimplementedFeature_notMem_decodeDiagnostics (pc bits w : Word) :
    Diagnostic.unimplementedFeature pc bits ∉ decodeDiagnostics w := by
  unfold decodeDiagnostics
  split <;> simp

/-- Both rows of `Jalr` ask the halt bit whether there is anything to report (44_control R142). -/
theorem execDiagnostics_ofVariant_jalr (a b : RegNum) (simm pc bits : Word) :
    execDiagnostics (Instr.ofVariant (.jalr a b simm)) pc bits =
      if haltBit simm then [] else [.unimplementedFeature pc bits] := by
  rw [Instr.ofVariant_jalr]
  split <;> rfl

/-- A step of a `Jalr` word reports it exactly when its halt bit is clear (44_control R142, D14). -/
theorem unimplementedFeature_mem_stepDiagnostics_iff {a b : RegNum} {simm w : Word} {s : State} (hh : s.halt = false)
    (hf : s.fetch = .ok w) (hv : decodeVariant w = .ok (.jalr a b simm)) :
    Diagnostic.unimplementedFeature s.pc w ∈ stepDiagnostics s ↔ haltBit simm = false := by
  rw [stepDiagnostics_of_decode hh hf (decode_of_decodeVariant hv), execDiagnostics_ofVariant_jalr, List.mem_append,
    or_iff_right (unimplementedFeature_notMem_decodeDiagnostics _ _ _)]
  cases haltBit simm <;> simp

/-- Settles O29: the word, the completion both rows share, and the diagnostic that a clear halt bit gives. -/
theorem jalrHaltsOrDoesNothing : Obligations.JalrHaltsOrDoesNothing :=
  ⟨encodeVariant_rowRRI_signExtend .jalr, fun _ _ _ s _ hi => exec_completes_of_jalr_or_hlt hi s,
    fun _ _ _ _ _ hh hf hv => unimplementedFeature_mem_stepDiagnostics_iff hh hf hv⟩

/-! ### `beq` (44_control R140, R141) -/

/-- Settles O28: a `beq` does nothing but complete, at the target it has chosen; the target's parity is not asked (D5). -/
theorem beqBranchesOnEquality : Obligations.BeqBranchesOnEquality := by
  refine ⟨encodeVariant_rowRRI_signExtend .beq, fun a b simm s => ?_⟩
  have hexec : exec (.beq a b simm) s =
      .next (s.complete (if s.reg a = s.reg b then s.branchTarget simm else s.nextPC)) := rfl
  exact ⟨_, hexec, rfl, fun _ => rfl, rfl, fun _ => rfl, ⟨rfl, rfl⟩, StepResult.ofOutcome_of_complete hexec rfl⟩

end Sys2Proof.Machine
end

section
/-! PROOFS. The statements about the execution engine and the host's commands (45_engine): what a step does by what it
fetches and by what it answers, then the budget of a run, the placed word and the commands. -/

namespace Sys2Proof.Machine

/-! ### The step by what it fetches (45_engine R150 to R153) -/

/-- The fetch at an even pc, by word index (45_engine R151, 20_memory R40). -/
theorem State.fetch_of_even {s : State} (h : isOdd s.pc = false) :
    s.fetch = .ok (Memory.get s.mem (s.pc.toNat / 2)) := by
  rw [State.fetch, memRead_even h, wordIndex_eq]

/-- The fetch at an odd pc (45_engine R151, D5). -/
theorem State.fetch_of_odd {s : State} (h : isOdd s.pc = true) : s.fetch = .error (.unalignedAccess s.pc) :=
  memRead_odd h s.mem

theorem step_of_decode_ok {s : State} {w : Word} {i : Instr} (hh : s.halt = false) (hf : s.fetch = .ok w)
    (hd : decode w = .ok i) : step s = exec i s :=
  step_of_nextInstr ((s.nextInstr_eq_some_iff i).2 ⟨hh, w, hf, hd⟩)

theorem step_of_fetch_error {s : State} {r : Raised} (hh : s.halt = false) (hf : s.fetch = .error r) :
    step s = s.faultEntry r := by
  simp [step, engineStep, hh, hf]

/-- A step that faults finds the same state at every repetition, and faults alike (D6). -/
theorem State.stepTimes_stepCommand_of_faultEntry {s : State} {r : Raised} (h : step s = s.faultEntry r) (n : Nat) :
    (s.stepTimes n).stepCommand = (s, .fault (Raised.toFault s.pc r)) := by
  have hfault := State.stepCommand_of_faultEntry h
  rw [State.stepTimes_of_stepCommand_fst (by rw [hfault]), hfault]

theorem stepDiagnostics_of_halt {s : State} (h : s.halt = true) : stepDiagnostics s = [] := if_pos h

/-- Settles O32: the word at the pc is the word fetched. -/
theorem stepRunsTheDecodedInstruction : Obligations.StepRunsTheDecodedInstruction := by
  rintro s w i hh hpc rfl hd
  exact step_of_decode_ok hh (State.fetch_of_even hpc) hd

/-- Settles O33, from the laws of the halted machine. -/
theorem haltedMachineStaysPut : Obligations.HaltedMachineStaysPut := fun _ h =>
  ⟨State.stepCommand_of_halt h, stepDiagnostics_of_halt h, State.stepTimes_of_halt h, State.runToHalt_succ_of_halt h⟩

/-- Settles O34: the fetch fails, and a fault repeats. -/
theorem oddPcFaultsForEver : Obligations.OddPcFaultsForEver := fun _ hh hodd =>
  State.stepTimes_stepCommand_of_faultEntry (step_of_fetch_error hh (State.fetch_of_odd hodd))

/-- Settles O35: the decoder's one failure names the word, and a fault repeats. -/
theorem malformedWordFaultsForEver : Obligations.MalformedWordFaultsForEver := by
  intro s w r hh hf hd
  obtain ⟨-, -, rfl⟩ := (decode_error_iff w r).1 hd
  exact State.stepTimes_stepCommand_of_faultEntry (step_of_decode_error hh hf hd)

/-! ### The outcomes of an instruction and of a step: a next state or fault entry, never a refusal -/

theorem execLw_next_or_faultEntry (a b : RegNum) (simm : Word) (s : State) :
    (∃ t, execLw a b simm s = .next t) ∨ ∃ r, execLw a b simm s = s.faultEntry r := by
  by_cases hea : s.effectiveAddress b simm = portAddr
  · by_cases hq : s.inq = []
    · exact .inl ⟨_, execLw_port_empty hea hq⟩
    · obtain ⟨v, q, hq⟩ := List.exists_cons_of_ne_nil hq
      exact .inl ⟨_, execLw_port_cons hea hq⟩
  cases ho : isOdd (s.effectiveAddress b simm) with
  | true => exact .inr ⟨.unalignedAccess _, execLw_unaligned ho⟩
  | false => exact .inl ⟨_, execLw_memory hea (memRead_even ho s.mem)⟩

theorem execSw_next_or_faultEntry (a b : RegNum) (simm : Word) (s : State) :
    (∃ t, execSw a b simm s = .next t) ∨ ∃ r, execSw a b simm s = s.faultEntry r := by
  by_cases hea : s.effectiveAddress b simm = portAddr
  · exact .inl ⟨_, execSw_port hea⟩
  cases ho : isOdd (s.effectiveAddress b simm) with
  | true => exact .inr ⟨.unalignedAccess _, execSw_unaligned ho⟩
  | false => exact .inl ⟨_, execSw_memory hea ho⟩

theorem exec_next_or_faultEntry (i : Instr) (s : State) :
    (∃ t, exec i s = .next t) ∨ ∃ r, exec i s = s.faultEntry r := by
  cases i with
  | lw a b simm => exact execLw_next_or_faultEntry a b simm s
  | sw a b simm => exact execSw_next_or_faultEntry a b simm s
  | add | addi | nand | lui | beq | jalr | hlt => exact .inl ⟨_, rfl⟩

theorem step_next_or_faultEntry (s : State) : (∃ t, step s = .next t) ∨ ∃ r, step s = s.faultEntry r := by
  cases hh : s.halt with
  | true => exact .inl ⟨s, step_of_halt hh⟩
  | false =>
    cases hf : s.fetch with
    | error r => exact .inr ⟨r, step_of_fetch_error hh hf⟩
    | ok w =>
      cases hd : decode w with
      | error r => exact .inr ⟨r, step_of_decode_error hh hf hd⟩
      | ok i =>
        rw [step_of_decode_ok hh hf hd]
        exact exec_next_or_faultEntry i s

/-! ### The four answers of a step (45_engine R156, log entry 6) -/

/-- All a step as a command can answer, and the state it leaves with each answer. -/
theorem State.stepCommand_cases (s : State) :
    (∃ t, step s = .next t ∧ s.stepCommand = (t, .continued) ∧ t.halt = false ∧ t.blocked = false) ∨
    (∃ t, step s = .next t ∧ s.stepCommand = (t, .halted) ∧ t.halt = true) ∨
    (∃ t, step s = .next t ∧ s.stepCommand = (t, .blockedOnInput) ∧ t.halt = false ∧ t.blocked = true) ∨
    (∃ r, step s = s.faultEntry r ∧ s.stepCommand = (s, .fault (Raised.toFault s.pc r))) := by
  rcases step_next_or_faultEntry s with ⟨t, hstep⟩ | ⟨r, hstep⟩
  · have hcommand := State.stepCommand_of_next hstep
    cases hh : t.halt with
    | true => exact .inr (.inl ⟨t, hstep, by simp [hcommand, StepResult.ofOutcome, hh], hh⟩)
    | false =>
      cases hb : t.blocked with
      | true => exact .inr (.inr (.inl ⟨t, hstep, by simp [hcommand, StepResult.ofOutcome, hh, hb], hh, hb⟩))
      | false => exact .inl ⟨t, hstep, by rw [hcommand, StepResult.ofOutcome_next_of_clear hh hb], hh, hb⟩
  · exact .inr (.inr (.inr ⟨r, hstep, State.stepCommand_of_faultEntry hstep⟩))

/-! ### What each next state says of the instruction that was run -/

/-- A machine that is not halted after a step has run an instruction in it (45_engine R153). -/
theorem step_next_exec_of_not_halt {s t : State} (h : step s = .next t) (ht : t.halt = false) :
    ∃ i, s.nextInstr = some i ∧ exec i s = .next t := by
  rcases step_next_nextInstr h with ⟨hh, rfl⟩ | hrun
  · rw [hh] at ht
    cases ht
  · exact hrun

/-- The decoder answers the row `hlt` only for a set halt bit (30_encoding R71). -/
theorem haltBit_of_decode_hlt {bits : Word} {a b : RegNum} {simm : Word} (h : decode bits = .ok (.hlt a b simm)) :
    haltBit simm = true :=
  haltBit_of_wellFormed_hlt (encodeOfDecode bits _ h).1

/-- The step of an `hlt`, every field (44_control R142, R143). -/
theorem step_of_nextInstr_hlt {s : State} {a b : RegNum} {simm : Word} (h : s.nextInstr = some (.hlt a b simm)) :
    step s = .next { s with halt := true, pc := s.nextPC, blocked := false } := by
  obtain ⟨-, bits, -, hd⟩ := (s.nextInstr_eq_some_iff _).1 h
  rw [step_of_nextInstr h, exec_of_jalr_or_hlt (.inr rfl), haltBit_of_decode_hlt hd, Bool.or_true]

/-- A machine that is halted after a step was halted, or has run an `hlt` in it (44_control R142, D3). -/
theorem step_next_of_halt_set {s t : State} (h : step s = .next t) (ht : t.halt = true) :
    (s.halt = true ∧ t = s) ∨
    ((∃ a b simm, s.nextInstr = some (.hlt a b simm)) ∧
      t = { s with halt := true, pc := s.nextPC, blocked := false }) := by
  rcases step_next_halt_cases h with heq | ⟨a, b, simm, hi⟩
  · have hs : s.halt = true := heq.symm.trans ht
    cases (step_of_halt hs).symm.trans h
    exact .inl ⟨hs, rfl⟩
  · cases (step_of_nextInstr_hlt hi).symm.trans h
    exact .inr ⟨⟨a, b, simm, hi⟩, rfl⟩

/-- A machine that is not halted after a step has run no `hlt` in it. -/
theorem ne_hlt_of_step_next {s t : State} {i : Instr} (hi : s.nextInstr = some i) (h : step s = .next t)
    (ht : t.halt = false) (a b : RegNum) (simm : Word) : i ≠ .hlt a b simm := by
  rintro rfl
  cases (step_of_nextInstr_hlt hi).symm.trans h
  cases ht

/-- A machine that is blocked and not halted after a step has run an `lw` at the empty port in it (43_load_store_io R130). -/
theorem step_next_of_blocked_set {s t : State} (h : step s = .next t) (hhalt : t.halt = false)
    (hblocked : t.blocked = true) :
    (∃ a b simm, s.nextInstr = some (.lw a b simm) ∧ s.effectiveAddress b simm = portAddr) ∧ s.inq = [] ∧
      t = s.setBlocked := by
  obtain ⟨i, hi, hexec⟩ := step_next_exec_of_not_halt h hhalt
  obtain ⟨a, b, simm, rfl, hea, hq⟩ := (blockedMeansWaitingForInput i s t hexec).1 hblocked
  cases (execLw_port_empty hea hq).symm.trans hexec
  exact ⟨⟨a, b, simm, hi, hea⟩, hq, rfl⟩

/-! ### The number of diagnostics (60_exceptions R207, R208) -/

theorem decodeDiagnostics_length_le (w : Word) : (decodeDiagnostics w).length ≤ 1 := by
  unfold decodeDiagnostics
  split <;> simp

theorem execDiagnostics_length_le (i : Instr) (pc w : Word) : (execDiagnostics i pc w).length ≤ 1 := by
  cases i with
  | jalr a b simm | hlt a b simm => cases hb : haltBit simm <;> simp [execDiagnostics, hb]
  | add | addi | nand | lui | lw | sw | beq => exact Nat.zero_le 1

/-- One diagnostic at most from the decoder and one from the instruction. -/
theorem stepDiagnostics_length_le (s : State) : (stepDiagnostics s).length ≤ 2 := by
  unfold stepDiagnostics
  split
  · exact Nat.zero_le 2
  split
  · exact Nat.zero_le 2
  next w _ =>
    split
    · exact Nat.zero_le 2
    next i _ =>
      rw [List.length_append]
      exact Nat.add_le_add (decodeDiagnostics_length_le w) (execDiagnostics_length_le i s.pc w)

/-- Settles O39, one answer of the step after another: each answer meets its own row of the table. -/
theorem stepResultTable : Obligations.StepResultTable := by
  intro s
  have hdiags := stepDiagnostics_length_le s
  rcases s.stepCommand_cases with ⟨t, hstep, hcommand, hhalt, hblocked⟩ | ⟨t, hstep, hcommand, hhalt⟩ |
    ⟨t, hstep, hcommand, hhalt, hblocked⟩ | ⟨r, hstep, hcommand⟩ <;> rw [hcommand]
  · obtain ⟨i, hi, hexec⟩ := step_next_exec_of_not_halt hstep hhalt
    have hne := ne_hlt_of_step_next hi hstep hhalt
    exact ⟨fun _ => ⟨i, t, hi, hexec, rfl, hhalt, hblocked, hne⟩, nofun, nofun, nofun, nofun, hdiags⟩
  · exact ⟨nofun, fun _ => step_next_of_halt_set hstep hhalt, nofun, nofun, nofun, hdiags⟩
  · exact ⟨nofun, nofun, fun _ => step_next_of_blocked_set hstep hhalt hblocked, nofun, nofun, hdiags⟩
  · exact ⟨nofun, nofun, nofun, fun _ hf => ⟨rfl, hstep.trans (congrArg _ (StepResult.fault.inj hf))⟩, nofun, hdiags⟩

/-! ### The budget of a run (45_engine R157) -/

/-- A run takes one step, and goes on only from `Continued`. -/
theorem State.runToHalt_succ (s : State) (n : Nat) :
    s.runToHalt (n + 1) = if s.stepCommand.2 = .continued then s.stepCommand.1.runToHalt n else s.stepCommand := by
  by_cases h : s.stepCommand.2 = .continued
  · have hcommand : s.stepCommand = (s.stepCommand.1, .continued) := Prod.ext rfl h
    rw [if_pos h, State.runToHalt, hcommand]
  · rw [if_neg h]
    exact State.runToHalt_succ_of_ne_continued rfl h n

theorem State.runToHalt_add (s : State) (n m : Nat) :
    s.runToHalt (n + m) =
      if (s.runToHalt n).2 = .continued then (s.runToHalt n).1.runToHalt m else s.runToHalt n := by
  induction n generalizing s with
  | zero => rw [Nat.zero_add, State.runToHalt, if_pos rfl]
  | succ n ih =>
    rw [Nat.succ_add, State.runToHalt_succ, State.runToHalt_succ s n]
    by_cases h : s.stepCommand.2 = .continued
    · simp only [if_pos h]
      exact ih s.stepCommand.1
    · simp only [if_neg h]

theorem State.runToHalt_fst_of_continued {s : State} {n : Nat} (h : (s.runToHalt n).2 = .continued) :
    (s.runToHalt n).1 = s.stepTimes n := by
  induction n generalizing s with
  | zero => rfl
  | succ n ih =>
    rw [State.runToHalt_succ] at h ⊢
    by_cases hfirst : s.stepCommand.2 = .continued
    · rw [if_pos hfirst] at h ⊢
      exact ih h
    · rw [if_neg hfirst] at h
      exact absurd h hfirst

/-- A run that answers anything but `Continued` answers what its last step did, after steps that all were `Continued`. -/
theorem State.runToHalt_last_step {s : State} {n : Nat} (h : (s.runToHalt n).2 ≠ .continued) :
    ∃ k, k < n ∧ (s.runToHalt k).2 = .continued ∧ (s.stepTimes k).stepCommand = s.runToHalt n := by
  induction n generalizing s with
  | zero => exact absurd rfl h
  | succ n ih =>
    rw [State.runToHalt_succ] at h ⊢
    by_cases hfirst : s.stepCommand.2 = .continued
    · rw [if_pos hfirst] at h ⊢
      obtain ⟨k, hk, hrun, hlast⟩ := ih h
      exact ⟨k + 1, Nat.succ_lt_succ hk, by rwa [State.runToHalt_succ, if_pos hfirst], hlast⟩
    · rw [if_neg hfirst]
      exact ⟨0, Nat.succ_pos n, rfl, rfl⟩

/-- Settles O51: each clause is an induction over the budget. -/
theorem runBudgetsAdd : Obligations.RunBudgetsAdd := fun s n m =>
  ⟨rfl, s.runToHalt_add n m, State.runToHalt_fst_of_continued,
    fun _ hr hres => State.runToHalt_last_step (by rwa [hres])⟩

/-! ### The placed word (log entry 3) -/

theorem State.withFetchWord_toNat (s : State) (w : Word) : s.withFetchWord 16 w.toNat = s.placeFetchWord w := by
  rw [State.withFetchWord, Nat.mod_eq_of_lt w.isLt, BitVec.ofNat_toNat, BitVec.setWidth_eq]

theorem isOdd_and_evenMask (pc : Word) : isOdd (pc &&& 0xFFFE#16) = false := by
  rw [isOdd, BitVec.getLsbD_and]
  exact Bool.and_false _

theorem and_evenMask_of_even {pc : Word} (h : isOdd pc = false) : pc &&& 0xFFFE#16 = pc := by
  refine BitVec.eq_of_getLsbD_eq fun i hi => ?_
  rw [BitVec.getLsbD_and]
  cases i with
  | zero => rw [show pc.getLsbD 0 = false from h, Bool.false_and]
  | succ i =>
    have hmask : ∀ j < 15, (0xFFFE#16).getLsbD (j + 1) = true := by decide
    rw [hmask i (Nat.lt_of_succ_lt_succ hi), Bool.and_true]

/-- The fetch meets the placed word: the pc has been made even (45_engine R151). -/
theorem State.fetch_placeFetchWord (s : State) (w : Word) : (s.placeFetchWord w).fetch = .ok w := by
  have heven := isOdd_and_evenMask s.pc
  rw [State.fetch, State.placeFetchWord_mem, State.placeFetchWord_pc, memRead_set _ _ _ _ heven, if_pos rfl]

/-- Settles O50: the placed word is the one fetched, and placing it is one store and two flags. -/
theorem placedWordIsRun : Obligations.PlacedWordIsRun := by
  intro s w i hd
  rw [State.withFetchWord_toNat]
  refine ⟨step_of_decode_ok rfl (s.fetch_placeFetchWord w) hd, fun _ => rfl, ⟨rfl, rfl⟩, fun heven => ?_⟩
  have hpc : s.pc &&& 0xFFFE#16 = s.pc := and_evenMask_of_even heven
  exact ⟨hpc, memWritten_of_mem_eq_set heven (by rw [State.placeFetchWord_mem, hpc])⟩

/-! ### The host's commands (45_engine R162 to R168) -/

/-- Settles O52: a full queue is refused, and a push into one with room appends. -/
theorem pushInputAppendsOrFails : Obligations.PushInputAppendsOrFails := by
  refine fun s v => ⟨fun hfull => ?_, State.perform_pushInput v⟩
  have herror : s.pushInput v = .error .inputQueueFull := if_pos hfull
  rw [State.perform, herror, State.orUnchanged]

/-- Settles O53: the four answers are the parts of the state themselves, `x[0]` reading 0. -/
theorem observationsChangeNothing : Obligations.ObservationsChangeNothing := fun _ => ⟨rfl, rfl, rfl, rfl⟩

theorem State.perform_disassembleAt_fst (s : State) (addr : Word) : (s.perform (.disassembleAt addr)).1 = s := by
  rw [State.perform]
  cases s.disassembleAt addr <;> rfl

theorem State.disassembleAt_odd {addr : Word} (h : isOdd addr = true) (s : State) :
    s.disassembleAt addr = .error (.notDisassembled (.unalignedAccess addr)) := by
  rw [State.disassembleAt, memRead_odd h]

/-- The text of a word that decodes (45_engine R168). -/
theorem State.disassembleAt_of_decode_ok {s : State} {addr : Word} {i : Instr} (h : isOdd addr = false)
    (hd : decode (Memory.get s.mem (addr.toNat / 2)) = .ok i) :
    s.disassembleAt addr = .ok (disassemble i.variant) := by
  obtain ⟨v, hv, rfl⟩ := (decode_ok_iff _ i).1 hd
  rw [← wordIndex_eq] at hv
  simp only [State.disassembleAt, memRead_even h, hv, Instr.variant_ofVariant]

/-- The decoder's error is the command's (45_engine R168, D16). -/
theorem State.disassembleAt_of_decode_error {s : State} {addr : Word} {r : Raised} (h : isOdd addr = false)
    (hd : decode (Memory.get s.mem (addr.toNat / 2)) = .error r) :
    s.disassembleAt addr = .error (.notDisassembled r) := by
  rw [decode_error_iff_decodeVariant, ← wordIndex_eq] at hd
  simp only [State.disassembleAt, memRead_even h, hd]

/-- Settles O56, by the parity of the address and what the word there decodes to. -/
theorem disassembleAtReadsMemory : Obligations.DisassembleAtReadsMemory := fun s addr =>
  ⟨s.perform_disassembleAt_fst addr, fun hodd => State.disassembleAt_odd hodd s,
    fun _ => State.disassembleAt_of_decode_ok, fun _ => State.disassembleAt_of_decode_error⟩

end Sys2Proof.Machine
end

section
/-! PROOFS. The statements about the disassembler (46_disassembler). Its numerals are Lean's own, which gives the table of
texts; a reader of texts that gives back the word then says that no two words share a text. -/

namespace Sys2Proof.Machine

/-! ### The numerals (46_disassembler R182) -/

theorem digitChar_eq (d : Nat) : digitChar d = (d % 10).digitChar := by
  refine Char.toNat_inj.1 ?_
  have hd : d % 10 < 10 := d.mod_lt (by decide)
  rw [Nat.toNat_digitChar_of_lt_ten hd, digitChar]
  interval_cases d % 10 <;> rfl

theorem digitChar_of_lt_ten {d : Nat} (h : d < 10) : digitChar d = d.digitChar := by
  rw [digitChar_eq, Nat.mod_eq_of_lt h]

/-- `decimalOnto` writes Lean's own decimal digits when its fuel allows all of them. -/
theorem decimalOnto_eq (fuel n : Nat) (rest : List Char) (h : n < 10 ^ (fuel + 1)) :
    decimalOnto (fuel + 1) n rest = Nat.toDigits 10 n ++ rest := by
  induction fuel generalizing n rest with
  | zero =>
    rw [Nat.zero_add, Nat.pow_one] at h
    rw [decimalOnto, if_pos h, Nat.toDigits_of_lt_base h, digitChar_of_lt_ten h, List.singleton_append]
  | succ fuel ih =>
    rw [decimalOnto]
    split
    · next hn => rw [Nat.toDigits_of_lt_base hn, digitChar_of_lt_ten hn, List.singleton_append]
    · next hn =>
      rw [ih (n / 10) _ (by omega), Nat.toDigits_of_base_le (b := 10) (n := n) (by decide) (by omega), digitChar_eq,
        List.append_assoc, List.singleton_append]

theorem ofList_decimalOnto {n : Nat} (h : n < 10 ^ 5) : String.ofList (decimalOnto 5 n []) = n.repr := by
  rw [decimalOnto_eq 4 n [] h, List.append_nil, Nat.repr_eq_ofList_toDigits]

theorem ofList_unsignedText (v : Word) : String.ofList (unsignedText v) = toString v.toNat :=
  ofList_decimalOnto (by omega)

theorem ofList_unsignedText_setWidth (imm : BitVec 10) :
    String.ofList (unsignedText (imm.setWidth 16)) = toString imm.toNat := by
  rw [ofList_unsignedText, BitVec.toNat_setWidth_of_le (by decide)]

/-- `signed` is the value in two's complement (00_scope R10). -/
theorem signed_eq_toInt (v : Word) : signed v = v.toInt := by
  rw [signed, BitVec.toInt_eq_toNat_cond]
  split <;> split <;> omega

theorem ofList_signedText (v : Word) : String.ofList (signedText v) = toString v.toInt := by
  have hle := v.le_toInt
  have hlt := v.toInt_lt
  rw [signedText, signed_eq_toInt, Int.toString_eq_repr, Int.repr_eq_if]
  split
  · next hneg =>
    rw [if_neg (by omega), ← List.singleton_append, String.ofList_append, ofList_decimalOnto (by omega),
      show v.toInt.natAbs = (-v.toInt).toNat by omega]
  · next hnonneg => rw [if_pos (by omega), ofList_decimalOnto (by omega), show v.toInt.natAbs = v.toInt.toNat by omega]

theorem ofList_signedText_signExtend (imm : BitVec 7) :
    String.ofList (signedText (imm.signExtend 16)) = toString imm.toInt := by
  rw [ofList_signedText, BitVec.toInt_signExtend_of_le (by decide)]

/-! ### The table of texts (46_disassembler R181) -/

theorem ofList_regText (r : RegNum) : String.ofList (regText r) = "R" ++ toString r.toNat := by
  have hr : r.toNat < 10 := by omega
  rw [regText, digitChar_of_lt_ten hr, Nat.toString_eq_ofList_toDigits, Nat.toDigits_of_lt_base hr,
    ← List.singleton_append, String.ofList_append]

theorem ofList_commaText : String.ofList commaText = ", " := rfl

theorem ofList_operandsRRR (mnemonic : List Char) (a b c : RegNum) :
    String.ofList (mnemonic ++ operandsRRR a b c) = String.ofList mnemonic ++ ("R" ++ toString a.toNat) ++ ", " ++
      ("R" ++ toString b.toNat) ++ ", " ++ ("R" ++ toString c.toNat) := by
  simp only [operandsRRR, String.ofList_append, ofList_regText, ofList_commaText, String.append_assoc]

theorem ofList_registers (mnemonic : List Char) (a b : RegNum) :
    String.ofList (mnemonic ++ regText a ++ commaText ++ regText b) =
      String.ofList mnemonic ++ ("R" ++ toString a.toNat) ++ ", " ++ ("R" ++ toString b.toNat) := by
  simp only [String.ofList_append, ofList_regText, ofList_commaText]

theorem ofList_operandsRI (mnemonic : List Char) (a : RegNum) (imm : BitVec 10) :
    String.ofList (mnemonic ++ regText a ++ commaText ++ unsignedText (imm.setWidth 16)) =
      String.ofList mnemonic ++ ("R" ++ toString a.toNat) ++ ", " ++ toString imm.toNat := by
  simp only [String.ofList_append, ofList_regText, ofList_commaText, ofList_unsignedText_setWidth]

theorem ofList_operandsRRI (mnemonic : List Char) (a b : RegNum) (imm : BitVec 7) :
    String.ofList (mnemonic ++ operandsRRI a b (imm.signExtend 16)) =
      String.ofList mnemonic ++ ("R" ++ toString a.toNat) ++ ", " ++ ("R" ++ toString b.toNat) ++ ", " ++
        toString imm.toInt := by
  simp only [operandsRRI, String.ofList_append, ofList_regText, ofList_commaText, ofList_signedText_signExtend,
    String.append_assoc]

theorem signExtend_imm7_inj (x y : BitVec 7) : x.signExtend 16 = y.signExtend 16 ↔ x = y :=
  (Function.LeftInverse.injective (g := BitVec.setWidth 7) (setWidth_signExtend_of_le (by decide))).eq_iff

/-- The three texts of `Jalr` by the immediate in the word (46_disassembler R181, D15). -/
theorem disassembleChars_jalr (a b : RegNum) (imm : BitVec 7) :
    disassembleChars (.jalr a b (imm.signExtend 16)) =
      if imm = 0 then ['j', 'a', 'l', 'r', ' '] ++ regText a ++ commaText ++ regText b
      else if a = 0 ∧ b = 0 ∧ imm = 1 then ['h', 'l', 't']
      else ['j', 'a', 'l', 'r', ' '] ++ operandsRRI a b (imm.signExtend 16) := by
  have hzero : 0#16 = (0#7).signExtend 16 := rfl
  have hone : 1#16 = (1#7).signExtend 16 := rfl
  rw [disassembleChars, hzero, hone]
  simp only [signExtend_imm7_inj]
  rfl

/-- Settles O57, variant by variant from the texts of the operands. -/
theorem disassemblerTexts : Obligations.DisassemblerTexts := by
  intro a b c imm7 imm10 ra rb rc simm n
  refine ⟨ofList_operandsRRR _ a b c, ofList_operandsRRR _ a b c, ofList_operandsRI _ a imm10,
    ofList_operandsRRI _ a b imm7, ofList_operandsRRI _ a b imm7, ofList_operandsRRI _ a b imm7,
    ofList_operandsRRI _ a b imm7, ?_⟩
  rw [disassemble, disassembleChars_jalr]
  split
  · exact ofList_registers _ a b
  · split
    · rfl
    · exact ofList_operandsRRI _ a b imm7

/-! ### Reading a text back (46_disassembler R183) -/

/-- The register a digit names. -/
def readReg (digit : Char) : RegNum := BitVec.ofNat 3 (digit.toNat - 48)

/-- The number a numeral names. -/
def readImm (numeral : List Char) : Int := (String.ofList numeral).toInt?.getD 0

/-- The word of format RRR with the operands `Ra, Rb, Rc`. -/
def readRRR (op : RegNum) : List Char → Word
  | [_, a, _, _, _, b, _, _, _, c] => wordRRR op (readReg a) (readReg b) (readReg c)
  | _ => 0

/-- The word of format RI with the operands `Ra, imm`. -/
def readRI (op : RegNum) : List Char → Word
  | _ :: a :: _ :: _ :: imm => wordRI op (readReg a) (BitVec.ofInt 10 (readImm imm))
  | _ => 0

/-- The word of format RRI with the operands `Ra, Rb` or `Ra, Rb, imm`. -/
def readRRI (op : RegNum) : List Char → Word
  | [_, a, _, _, _, b] => wordRRI op (readReg a) (readReg b) 0
  | _ :: a :: _ :: _ :: _ :: b :: _ :: _ :: imm => wordRRI op (readReg a) (readReg b) (BitVec.ofInt 7 (readImm imm))
  | _ => 0

/-- The word of a text: the mnemonic up to its space gives the opcode and with it the format of the operands. -/
def readText : List Char → Word
  | 'a' :: 'd' :: 'd' :: ' ' :: l => readRRR 0b000#3 l
  | 'a' :: 'd' :: 'd' :: 'i' :: ' ' :: l => readRRI 0b001#3 l
  | 'n' :: 'a' :: 'n' :: 'd' :: ' ' :: l => readRRR 0b010#3 l
  | 'l' :: 'u' :: 'i' :: ' ' :: l => readRI 0b011#3 l
  | 'l' :: 'w' :: ' ' :: l => readRRI 0b100#3 l
  | 's' :: 'w' :: ' ' :: l => readRRI 0b101#3 l
  | 'b' :: 'e' :: 'q' :: ' ' :: l => readRRI 0b110#3 l
  | 'j' :: 'a' :: 'l' :: 'r' :: ' ' :: l => readRRI 0b111#3 l
  | ['h', 'l', 't'] => wordRRI 0b111#3 0 0 1
  | _ => 0

theorem readReg_digitChar (r : RegNum) : readReg (digitChar r.toNat) = r := by
  have hr : r.toNat < 10 := by omega
  rw [readReg, digitChar_of_lt_ten hr, Nat.toNat_digitChar_sub_48_of_lt_ten hr, BitVec.ofNat_toNat, BitVec.setWidth_eq]

theorem readImm_unsignedText (imm : BitVec 10) : readImm (unsignedText (imm.setWidth 16)) = imm.toNat := by
  rw [readImm, ofList_unsignedText_setWidth, Nat.toString_eq_repr, Nat.toInt?_repr, Option.getD_some]

theorem readImm_signedText (imm : BitVec 7) : readImm (signedText (imm.signExtend 16)) = imm.toInt := by
  rw [readImm, ofList_signedText_signExtend, Int.toString_eq_repr, Int.toInt?_repr, Option.getD_some]

theorem readRRR_operandsRRR (op a b c : RegNum) : readRRR op (operandsRRR a b c) = wordRRR op a b c := by
  simp only [operandsRRR, regText, commaText, List.cons_append, List.nil_append, readRRR, readReg_digitChar]

theorem readRI_operands (op a : RegNum) (imm : BitVec 10) :
    readRI op (regText a ++ commaText ++ unsignedText (imm.setWidth 16)) = wordRI op a imm := by
  simp only [regText, commaText, List.cons_append, List.nil_append, readRI, readReg_digitChar, readImm_unsignedText,
    BitVec.ofInt_natCast, BitVec.ofNat_toNat, BitVec.setWidth_eq]

theorem readRRI_operandsRRI (op a b : RegNum) (imm : BitVec 7) :
    readRRI op (operandsRRI a b (imm.signExtend 16)) = wordRRI op a b imm := by
  simp only [operandsRRI, regText, commaText, List.cons_append, List.nil_append, readRRI, readReg_digitChar,
    readImm_signedText, BitVec.ofInt_toInt]

theorem readRRI_registers (op a b : RegNum) : readRRI op (regText a ++ commaText ++ regText b) = wordRRI op a b 0 := by
  simp only [regText, commaText, List.cons_append, List.nil_append, readRRI, readReg_digitChar]

theorem readText_disassembleChars_jalr (a b : RegNum) (imm : BitVec 7) :
    readText (disassembleChars (.jalr a b (imm.signExtend 16))) = wordRRI 0b111#3 a b imm := by
  rw [disassembleChars_jalr]
  split
  · next hzero => exact hzero ▸ readRRI_registers 0b111#3 a b
  · split
    · next hhlt => obtain ⟨rfl, rfl, rfl⟩ := hhlt; rfl
    · exact readRRI_operandsRRI 0b111#3 a b imm

theorem readText_disassembleChars_rowRRR {op : RegNum} {mk : RegNum → RegNum → RegNum → Variant} (row : RowRRR op mk)
    (a b c : RegNum) : readText (disassembleChars (mk a b c)) = wordRRR op a b c := by
  cases row <;> exact readRRR_operandsRRR _ a b c

theorem readText_disassembleChars_rowRRI {op : RegNum} {mk : RegNum → RegNum → Word → Variant} (row : RowRRI op mk)
    (a b : RegNum) (imm : BitVec 7) :
    readText (disassembleChars (mk a b (imm.signExtend 16))) = wordRRI op a b imm := by
  cases row with
  | jalr => exact readText_disassembleChars_jalr a b imm
  | addi | lw | sw | beq => exact readRRI_operandsRRI _ a b imm

/-- The text of a word's variant reads back as the word (46_disassembler R183). -/
theorem DecodesTo.readText_disassembleChars {w : Word} {v : Variant} (h : DecodesTo w v) :
    readText (disassembleChars v) = w := by
  cases h with
  | rrr row hz => rw [readText_disassembleChars_rowRRR row, wordRRR_of_fields hz]
  | lui hop =>
    calc readText (disassembleChars (.lui (w.extractLsb' 10 3) ((w.extractLsb' 0 10).setWidth 16)))
      _ = wordRI 0b011#3 (w.extractLsb' 10 3) (w.extractLsb' 0 10) := readRI_operands _ _ _
      _ = w := by rw [← hop, wordRI_of_fields]
  | rri row => rw [readText_disassembleChars_rowRRI row, wordRRI_of_fields]

/-- Settles O58: equal texts read back as one word. -/
theorem disassemblyIsInjective : Obligations.DisassemblyIsInjective := by
  intro w w' v v' hw hw' htext
  have hchars : disassembleChars v = disassembleChars v' := String.ofList_injective htext
  calc w
    _ = readText (disassembleChars v) := ((decodeVariant_ok_iff w v).1 hw).readText_disassembleChars.symm
    _ = readText (disassembleChars v') := congrArg readText hchars
    _ = w' := ((decodeVariant_ok_iff w' v').1 hw').readText_disassembleChars

end Sys2Proof.Machine
end

section
/-! PROOFS. The statements about fault entry and the diagnostics (60_exceptions). The causes of a fault are listed once, with
the fault each gives; the causes of a kind are then read off the list. -/

namespace Sys2Proof.Machine

/-! ### Fault entry (60_exceptions R205) -/

/-- Both kinds that a step can raise are fatal (60_exceptions R200). -/
theorem Raised.kind_fatal (r : Raised) : r.kind.fatal = true := by cases r <;> rfl

/-- The fault a step answers is one that fault entry made. -/
theorem step_fault_faultEntry {s : State} {f : Fault} (h : step s = .fault f) :
    ∃ r, step s = s.faultEntry r ∧ f = Raised.toFault s.pc r := by
  rcases step_next_or_faultEntry s with ⟨t, hnext⟩ | ⟨r, hentry⟩
  · cases hnext.symm.trans h
  · cases hentry.symm.trans h
    exact ⟨r, hentry, rfl⟩

/-- Settles O36: fault entry reports the pc of the step and gives the same state back, to which every further step and run
comes again. -/
theorem faultsArePrecise : Obligations.FaultsArePrecise := by
  intro s f h
  obtain ⟨r, hentry, rfl⟩ := step_fault_faultEntry h
  have hcommand := State.stepCommand_of_faultEntry hentry
  refine ⟨Raised.toFault_pc s.pc r, ?fatal, ?perform, State.stepTimes_stepCommand_of_faultEntry hentry,
    State.runToHalt_succ_of_ne_continued hcommand nofun⟩
  case fatal => rw [Raised.toFault_kind, Raised.kind_fatal]
  case perform => rw [State.perform, hcommand]

/-! ### The causes of a fault (60_exceptions R201, R202) -/

theorem isOdd_of_execLw_fault {a b : RegNum} {simm : Word} {s : State} {f : Fault} (h : execLw a b simm s = .fault f) :
    isOdd (s.effectiveAddress b simm) = true := by
  refine Bool.eq_true_of_not_eq_false fun heven => ?_
  by_cases hea : s.effectiveAddress b simm = portAddr
  · cases hq : s.inq with
    | nil => cases (execLw_port_empty hea hq).symm.trans h
    | cons v q => cases (execLw_port_cons hea hq).symm.trans h
  · cases (execLw_memory hea (memRead_even heven s.mem)).symm.trans h

theorem isOdd_of_execSw_fault {a b : RegNum} {simm : Word} {s : State} {f : Fault} (h : execSw a b simm s = .fault f) :
    isOdd (s.effectiveAddress b simm) = true := by
  refine Bool.eq_true_of_not_eq_false fun heven => ?_
  by_cases hea : s.effectiveAddress b simm = portAddr
  · cases (execSw_port hea).symm.trans h
  · cases (execSw_memory hea heven).symm.trans h

/-- The only instructions that fault are `lw` and `sw`, at an odd effective address. -/
theorem exec_fault_iff (i : Instr) (s : State) (f : Fault) :
    exec i s = .fault f ↔ ∃ a b simm, (i = .lw a b simm ∨ i = .sw a b simm) ∧
      isOdd (s.effectiveAddress b simm) = true ∧ f = .unalignedAccess s.pc (s.effectiveAddress b simm) := by
  constructor
  · intro h
    cases i with
    | lw a b simm =>
      have hodd := isOdd_of_execLw_fault h
      cases (execLw_unaligned hodd).symm.trans h
      exact ⟨a, b, simm, .inl rfl, hodd, rfl⟩
    | sw a b simm =>
      have hodd := isOdd_of_execSw_fault h
      cases (execSw_unaligned hodd).symm.trans h
      exact ⟨a, b, simm, .inr rfl, hodd, rfl⟩
    | add | addi | nand | lui | beq | jalr | hlt => cases h
  · rintro ⟨a, b, simm, rfl | rfl, hodd, rfl⟩
    · exact execLw_unaligned hodd
    · exact execSw_unaligned hodd

/-- What makes the step of a machine that is not halted fault, with the fault it gives; `step_fault_iff` says that these are
all the causes. -/
inductive FaultCause (s : State) : Fault → Prop where
  | oddPc (hodd : isOdd s.pc = true) : FaultCause s (.unalignedAccess s.pc s.pc)
  | malformedWord {w : Word} (hf : s.fetch = .ok w) (hd : decode w = .error (.malformedInstruction w)) :
      FaultCause s (.malformedInstruction s.pc w)
  | oddAddress {w : Word} {i : Instr} {a b : RegNum} {simm : Word} (hf : s.fetch = .ok w) (hd : decode w = .ok i)
      (hi : i = .lw a b simm ∨ i = .sw a b simm) (hodd : isOdd (s.effectiveAddress b simm) = true) :
      FaultCause s (.unalignedAccess s.pc (s.effectiveAddress b simm))

theorem FaultCause.step_eq {s : State} {f : Fault} (h : FaultCause s f) (hh : s.halt = false) : step s = .fault f := by
  cases h with
  | oddPc hodd => exact step_of_fetch_error hh (State.fetch_of_odd hodd)
  | malformedWord hf hd => exact step_of_decode_error hh hf hd
  | oddAddress hf hd hi hodd =>
    rw [step_of_decode_ok hh hf hd]
    exact (exec_fault_iff _ s _).2 ⟨_, _, _, hi, hodd, rfl⟩

/-- The causes in the order of a step: the fetch, the decoder, the instruction (60_exceptions R210). -/
theorem faultCause_of_step {s : State} {f : Fault} (hh : s.halt = false) (h : step s = .fault f) : FaultCause s f := by
  cases hpc : isOdd s.pc with
  | true =>
    cases (step_of_fetch_error hh (State.fetch_of_odd hpc)).symm.trans h
    exact .oddPc hpc
  | false =>
    obtain ⟨w, hf⟩ : ∃ w, s.fetch = .ok w := ⟨_, State.fetch_of_even hpc⟩
    cases hd : decode w with
    | error r =>
      obtain ⟨-, -, rfl⟩ := (decode_error_iff w r).1 hd
      cases (step_of_decode_error hh hf hd).symm.trans h
      exact .malformedWord hf hd
    | ok i =>
      obtain ⟨a, b, simm, hi, hodd, rfl⟩ := (exec_fault_iff i s f).1 ((step_of_decode_ok hh hf hd).symm.trans h)
      exact .oddAddress hf hd hi hodd

theorem step_fault_iff (s : State) (f : Fault) : step s = .fault f ↔ s.halt = false ∧ FaultCause s f := by
  refine ⟨fun h => ?_, fun ⟨hh, hcause⟩ => hcause.step_eq hh⟩
  cases hh : s.halt with
  | true => cases (step_of_halt hh).symm.trans h
  | false => exact ⟨rfl, faultCause_of_step hh h⟩

/-- Settles O37: the causes on the list that give this kind are the odd pc and the odd address. -/
theorem unalignedAccessCauses : Obligations.UnalignedAccessCauses := by
  intro s p addr
  rw [step_fault_iff]
  constructor
  · rintro ⟨hh, hcause⟩
    cases hcause with
    | oddPc hodd => exact ⟨rfl, hh, .inl ⟨hodd, rfl⟩⟩
    | oddAddress hf hd hi hodd =>
      exact ⟨rfl, hh, .inr ⟨_, _, _, _, hf, hi.imp (fun h => h ▸ hd) (fun h => h ▸ hd), rfl, hodd⟩⟩
  · rintro ⟨rfl, hh, ⟨hodd, rfl⟩ | ⟨w, a, b, simm, hf, hd | hd, rfl, hodd⟩⟩
    · exact ⟨hh, .oddPc hodd⟩
    · exact ⟨hh, .oddAddress hf hd (.inl rfl) hodd⟩
    · exact ⟨hh, .oddAddress hf hd (.inr rfl) hodd⟩

/-- Settles O38: the one cause on the list that gives this kind is the decoder's one failure. -/
theorem malformedInstructionCause : Obligations.MalformedInstructionCause := by
  intro s p w
  rw [step_fault_iff]
  constructor
  · rintro ⟨hh, hcause⟩
    cases hcause with
    | malformedWord hf hd =>
      obtain ⟨hop, hz, -⟩ := (decode_error_iff w _).1 hd
      exact ⟨rfl, hh, hf, hop, hz⟩
  · rintro ⟨rfl, hh, hf, hop, hz⟩
    exact ⟨hh, .malformedWord hf ((decode_error_iff w _).2 ⟨hop, hz, rfl⟩)⟩

/-! ### The diagnostics of a fetched word (60_exceptions R207, R208) -/

/-- The halt bit of a `Jalr` word is its bit 0 (30_encoding R68). -/
theorem haltBit_signExtend_imm7 (w : Word) : haltBit ((w.extractLsb' 0 7).signExtend 16) = w.getLsbD 0 := by
  simp [haltBit, BitVec.getElem_signExtend]

theorem setWidth_eq_setWidth_iff {v w : Nat} (h : v ≤ w) (x y : BitVec v) :
    x.setWidth w = y.setWidth w ↔ x = y := by
  refine ⟨fun heq => ?_, congrArg _⟩
  simpa [BitVec.setWidth_setWidth_of_le _ h] using congrArg (BitVec.setWidth v) heq

/-- The decoder's diagnostic by the fields of the word (60_exceptions R208). -/
theorem decodeDiagnostics_eq (w : Word) :
    decodeDiagnostics w =
      if w.extractLsb' 13 3 = 0b111#3 then (if w.extractLsb' 0 7 = 0#7 then [] else [.jalrNonZeroImmediate w]) else [] := by
  have hop : opcodeField w = 0b111#16 ↔ w.extractLsb' 13 3 = 0b111#3 := by
    rw [opcodeField_eq]
    exact setWidth_eq_setWidth_iff (by decide) _ 0b111#3
  have himm : imm7Field w = 0#16 ↔ w.extractLsb' 0 7 = 0#7 := by
    rw [imm7Field_eq]
    exact setWidth_eq_setWidth_iff (by decide) _ 0#7
  simp only [decodeDiagnostics, hop, himm, ne_eq, ite_and, ite_not]

/-- Only the instructions of opcode `0b111` emit a diagnostic, and they ask bit 0 of the word (44_control R142). -/
theorem execDiagnostics_of_decode {w : Word} {i : Instr} (hd : decode w = .ok i) (pc : Word) :
    execDiagnostics i pc w =
      if w.extractLsb' 13 3 = 0b111#3 then (if w.getLsbD 0 then [] else [.unimplementedFeature pc w]) else [] := by
  obtain ⟨v, hv, rfl⟩ := (decode_ok_iff w i).1 hd
  cases (decodeVariant_ok_iff w v).1 hv with
  | rrr row hz =>
    generalize w.extractLsb' 13 3 = op at row ⊢
    cases row <;> rfl
  | lui hop => rw [hop]; rfl
  | rri row =>
    generalize w.extractLsb' 13 3 = op at row ⊢
    cases row with
    | jalr =>
      rw [execDiagnostics_ofVariant_jalr, haltBit_signExtend_imm7]
      rfl
    | addi | lw | sw | beq => rfl

theorem stepDiagnostics_of_decode_error {s : State} {w : Word} {r : Raised} (hf : s.fetch = .ok w)
    (hd : decode w = .error r) : stepDiagnostics s = [] := by
  simp [stepDiagnostics, hf, hd]

/-- Settles O49: a word that fails is not of opcode `0b111`; one that decodes emits the decoder's diagnostics, then the
instruction's. -/
theorem stepDiagnosticsByWord : Obligations.StepDiagnosticsByWord := by
  intro s w hh hf
  cases hd : decode w with
  | error r =>
    obtain ⟨hop, -, -⟩ := (decode_error_iff w r).1 hd
    rw [stepDiagnostics_of_decode_error hf hd]
    rcases hop with hop | hop <;> rw [hop] <;> rfl
  | ok i =>
    rw [stepDiagnostics_of_decode hh hf hd, decodeDiagnostics_eq, execDiagnostics_of_decode hd]
    by_cases hop : w.extractLsb' 13 3 = 0b111#3
    · simp only [if_pos hop]
    · simp only [if_neg hop, List.append_nil]

end Sys2Proof.Machine
end

section
/-! PROOFS. The statements about reset and the program load (70_reset_and_hazards). Both install words from index 0 on over
some memory; one law says what such a memory reads as, and both statements about memory are that law. -/

namespace Sys2Proof.Machine

/-! ### The installed image (70_reset_and_hazards R230, R232) -/

/-- The word installed at an index, and past the last one the word that was there. -/
theorem Memory.get_install_zero (m : Memory) (ws : List Word) (k : Nat) :
    Memory.get (Memory.install m 0 ws) k = ws.getD k (Memory.get m k) := by
  rw [Memory.get_install]
  by_cases hk : k < ws.length
  · rw [if_pos (by omega), Nat.sub_zero, List.getD_eq_getElem _ _ hk, List.getD_eq_getElem _ _ hk]
  · rw [if_neg (by omega), List.getD_eq_default _ _ (by omega)]

/-- A read of an installed image by its byte address, whose index is half of it (20_memory R40). -/
theorem memRead_install_zero {addr : Word} (h : isOdd addr = false) (m : Memory) (ws : List Word) :
    memRead (Memory.install m 0 ws) addr =
      .ok (ws.getD (addr.toNat / 2) (Memory.get m (addr.toNat / 2))) := by
  rw [memRead_even h, wordIndex_eq, Memory.get_install_zero]

/-- Settles O14: the memory under the image is `mem_init`, and an address has an index below 32768. -/
theorem resetInstallsTheImage : Obligations.ResetInstallsTheImage := by
  refine fun image memInit => ⟨fun hfits => ?_, fun hlong => if_neg (Nat.not_le.2 hlong)⟩
  refine ⟨_, (State.resetWith_ok_iff image memInit _).2 ⟨hfits, rfl⟩, RegFile.zero_read, rfl, rfl, rfl, rfl, rfl,
    fun addr heven => ?_⟩
  have hindex : addr.toNat / 2 < memWords := wordIndex_eq addr ▸ wordIndex_lt addr
  rw [memRead_install_zero heven, Memory.get_ofFn memInit _ hindex]

/-- Settles O54: the memory under the words is the one before the load. -/
theorem loadProgramRestarts : Obligations.LoadProgramRestarts := by
  refine fun s ws => ⟨fun hfits => ?fits, fun hlong => ?long⟩
  case fits =>
    have hload := (s.loadProgram_ok_iff _ ws).2 ⟨hfits, rfl⟩
    refine ⟨_, congrArg s.orUnchanged hload, RegFile.zero_read, rfl, rfl, rfl, ⟨rfl, rfl⟩, fun addr heven => ?_⟩
    rw [memRead_install_zero heven, memRead_even heven, wordIndex_eq]
    split
    · next hi => rw [List.getD_eq_getElem _ _ hi]
    · next hi => rw [List.getD_eq_default _ _ (Nat.not_lt.1 hi)]
  case long =>
    have herror : s.loadProgram ws = .error .imageTooLong := if_neg (Nat.not_le.2 hlong)
    rw [State.perform, herror, State.orUnchanged]

/-! ### The state after reset (log entries 1 and 2) -/

/-- A memory of unlisted words lists nothing. -/
theorem Memory.ofFn_unlistedWord : Memory.ofFn (fun _ => unlistedWord) = [] :=
  List.eq_nil_iff_forall_not_mem.2 fun p hp =>
    have ⟨_, hword, hlisted⟩ := (Memory.mem_entriesOf memWords _ p).1 hp
    hlisted hword

/-- Settles O15: the unlisted word is 0, so `mem_init = 0` with no image lists nothing. -/
theorem resetStateIsTheZeroInstance : Obligations.ResetStateIsTheZeroInstance := by
  refine ⟨(State.resetWith_ok_iff [] _ State.reset).2 ⟨Nat.zero_le _, ?_⟩, RegFile.zero_read⟩
  have hmem : Memory.install (Memory.ofFn fun _ => 0) 0 [] = [] := Memory.ofFn_unlistedWord
  rw [hmem]
  rfl

/-- `mem_init` is canonical and installing an image keeps it so; the queue is empty. -/
theorem State.resetWith_wf {image : List Word} {memInit : Nat → Word} {s : State}
    (h : State.resetWith image memInit = .ok s) : s.wf := by
  obtain ⟨hfits, rfl⟩ := (State.resetWith_ok_iff image memInit s).1 h
  exact ⟨Memory.wf_install (Memory.wf_ofFn memInit) image (by omega), Nat.zero_le _⟩

/-- Settles O16: `State.reset` is itself such a reset. -/
theorem resetIsWellFormed : Obligations.ResetIsWellFormed :=
  ⟨State.resetWith_wf resetStateIsTheZeroInstance.1, fun _ _ _ => State.resetWith_wf⟩

end Sys2Proof.Machine
end
